-- ==== Sys2Proof/Word.lean ====
section
/-! DEFINITION. The word types of the BIC: what the spec treats as bits. Operand values are natural numbers (R10) and have
no type of their own here. -/

namespace Sys2Proof

/-- A 32-bit word of the bus, a register of the window or a command word (R28, R52, R75). -/
abbrev Word := BitVec 32

/-- A byte lane of the bus (R53). -/
abbrev Byte := BitVec 8

/-- A register index: the 4-bit fields RD, RS1, RS2, RS3 of a command word and RSEL.SEL (R21, R38, R76, R79). -/
abbrev RegIdx := BitVec 4

/-- The 16-bit immediate field IMM16 (R77, R79). -/
abbrev Imm16 := BitVec 16

end Sys2Proof
end

