-- ==== Sys2Proof/Config.lean ====
section
/-! DEFINITION. The implementation parameters of R8. They are fixed for one machine and are held in its state, so that a
statement about every state is about every legal instance (92 D2, D3, D20; log 6). LAT is not here: the latency is the order
of the entries of `State.inputs` (R230; log 2). -/

namespace Sys2Proof

/-- The parameters of one BIC (R8). CAPBITS is a multiple of 32, so it is held as CAPWORDS = CAPBITS / 32. -/
structure Params where
  /-- NREG, the number of operand registers. -/
  nreg : Nat
  /-- CAPWORDS, the number of 32-bit data words of one operand register. -/
  capWords : Nat
  /-- BASE, the byte address of the window in the host's address space. -/
  base : Nat
  deriving DecidableEq, Repr

/-- CAPBITS, the capacity of one operand register in bits (R8). -/
def Params.capBits (p : Params) : Nat := 32 * p.capWords

/-- The bound 2^CAPBITS below which every operand register's value lies (R9, R20). -/
def Params.bound (p : Params) : Nat := 2 ^ p.capBits

/-- The legal values of the parameters (R8). -/
abbrev Params.wf (p : Params) : Prop :=
  1 ≤ p.nreg ∧ p.nreg ≤ 16 ∧ 1 ≤ p.capWords ∧ p.capWords ≤ 2048 ∧ p.base % 256 = 0

/-- The instance that `State.reset` is: NREG and CAPBITS at the spec's defaults (R8). BASE has no default in the spec
(OPEN, U9): 0 is a DESIGN CHOICE (log 6). -/
def Config.defaultParams : Params := { nreg := 16, capWords := 128, base := 0 }

end Sys2Proof
end

