-- ==== Sys2Proof/Syntax.lean ====
section
/-! DEFINITION. The commands of the BIC: one constructor for each of the 19 rows of spec/opcode_table.json, with the
fields R78 marks as used. -/

namespace Sys2Proof

/-- A decoded command (R78, R81). The arguments stand in the order rd, rs1, rs2, rs3, imm16 of R88; for `div` the last one
is RS3, the remainder's destination. -/
inductive Instr where
  /-- ADD rd, rs1, rs2 (R102) -/
  | add (rd rs1 rs2 : RegIdx)
  /-- ADDT rd, rs1, rs2 (R103) -/
  | addt (rd rs1 rs2 : RegIdx)
  /-- SUB rd, rs1, rs2 (R105) -/
  | sub (rd rs1 rs2 : RegIdx)
  /-- SHL rd, rs1, #n (R106) -/
  | shl (rd rs1 : RegIdx) (imm : Imm16)
  /-- SHR rd, rs1, #n (R107) -/
  | shr (rd rs1 : RegIdx) (imm : Imm16)
  /-- AND rd, rs1, rs2 (R108) -/
  | and (rd rs1 rs2 : RegIdx)
  /-- CMP rs1, rs2 (R110) -/
  | cmp (rs1 rs2 : RegIdx)
  /-- MOV rd, rs1 (R111) -/
  | mov (rd rs1 : RegIdx)
  /-- LDI rd, #imm (R112) -/
  | ldi (rd : RegIdx) (imm : Imm16)
  /-- MUL rd, rs1, rs2 (R135) -/
  | mul (rd rs1 rs2 : RegIdx)
  /-- MULK rd, rs1, rs2 (R136) -/
  | mulk (rd rs1 rs2 : RegIdx)
  /-- MULT rd, rs1, rs2 (R137) -/
  | mult (rd rs1 rs2 : RegIdx)
  /-- DIV rd, rs3, rs1, rs2: quotient to rd, remainder to rs3 (R151) -/
  | div (rd rs1 rs2 rs3 : RegIdx)
  /-- MOD rd, rs1, rs2 (R152) -/
  | mod (rd rs1 rs2 : RegIdx)
  /-- MODADD rd, rs1, rs2, rs3 (R166) -/
  | modadd (rd rs1 rs2 rs3 : RegIdx)
  /-- MODMUL rd, rs1, rs2, rs3 (R167) -/
  | modmul (rd rs1 rs2 rs3 : RegIdx)
  /-- MODMULK rd, rs1, rs2, rs3 (R168) -/
  | modmulk (rd rs1 rs2 rs3 : RegIdx)
  /-- MODMULT rd, rs1, rs2, rs3 (R169) -/
  | modmult (rd rs1 rs2 rs3 : RegIdx)
  /-- MODEXP rd, rs1, rs2, rs3 (R171) -/
  | modexp (rd rs1 rs2 rs3 : RegIdx)
  deriving DecidableEq, Repr

end Sys2Proof
end

