-- ==== Sys2Proof/WellFormed.lean ====
section
/-! DEFINITION. The checks on a command that its encoding alone does not make: the register index check and the
distinct destinations of DIV (R80). -/

namespace Sys2Proof

/-- The register fields a command uses, in the order RD, RS1, RS2, RS3 (the columns of R78). -/
def Instr.regFields : Instr → List RegIdx
  | .add rd rs1 rs2 => [rd, rs1, rs2]
  | .addt rd rs1 rs2 => [rd, rs1, rs2]
  | .sub rd rs1 rs2 => [rd, rs1, rs2]
  | .shl rd rs1 _ => [rd, rs1]
  | .shr rd rs1 _ => [rd, rs1]
  | .and rd rs1 rs2 => [rd, rs1, rs2]
  | .cmp rs1 rs2 => [rs1, rs2]
  | .mov rd rs1 => [rd, rs1]
  | .ldi rd _ => [rd]
  | .mul rd rs1 rs2 => [rd, rs1, rs2]
  | .mulk rd rs1 rs2 => [rd, rs1, rs2]
  | .mult rd rs1 rs2 => [rd, rs1, rs2]
  | .div rd rs1 rs2 rs3 => [rd, rs1, rs2, rs3]
  | .mod rd rs1 rs2 => [rd, rs1, rs2]
  | .modadd rd rs1 rs2 rs3 => [rd, rs1, rs2, rs3]
  | .modmul rd rs1 rs2 rs3 => [rd, rs1, rs2, rs3]
  | .modmulk rd rs1 rs2 rs3 => [rd, rs1, rs2, rs3]
  | .modmult rd rs1 rs2 rs3 => [rd, rs1, rs2, rs3]
  | .modexp rd rs1 rs2 rs3 => [rd, rs1, rs2, rs3]

/-- Every used register field holds an index below NREG (R80). -/
def Instr.indexesOk (nreg : Nat) (i : Instr) : Bool := i.regFields.all (fun r => r.toNat < nreg)

/-- The two destinations of DIV differ; no other command has a pair of fields to check (R80). -/
def Instr.destsDistinct : Instr → Bool
  | .div rd _ _ rs3 => rd != rs3
  | .add .. | .addt .. | .sub .. | .shl .. | .shr .. | .and .. | .cmp .. | .mov .. | .ldi .. | .mul .. | .mulk ..
  | .mult .. | .mod .. | .modadd .. | .modmul .. | .modmulk .. | .modmult .. | .modexp .. => true

/-- A command that the instance with `nreg` operand registers executes: R80's checks hold. -/
def Instr.wf (nreg : Nat) (i : Instr) : Bool := i.indexesOk nreg && i.destsDistinct

end Sys2Proof
end

