-- ==== Sys2Proof/Decode.lean ====
section
/-! DEFINITION. Decoding of a command word (R75 to R82, R88), total and rejecting by name; the byte lanes of a word
(R53); and, after it, the encoder, written from the same tables. -/

namespace Sys2Proof

/-- Why a word is no legal command: the cases (a) to (e) of R82, and the one case of `decodeLanes` that is no word. All
of them are the one ILLEGAL of the hardware (R191). -/
inductive Reject where
  /-- (a): OP = 0x00 or OP ≥ 0x0F -/
  | reservedOpcode
  /-- (b): the pair (OP, FN) is reserved -/
  | reservedFunction
  /-- (c): a field that must be zero is not -/
  | mustBeZero
  /-- (d): a used register field is ≥ NREG -/
  | registerIndex
  /-- (e): DIV with RD = RS3 -/
  | sameDestinations
  /-- not the four byte lanes of one word -/
  | notOneWord
  deriving DecidableEq, Repr

/-- What `Decode` returns: ILLEGAL (with its reason) or a command (R88). -/
inductive Decoded where
  | illegal (why : Reject)
  | legal (i : Instr)
  deriving DecidableEq, Repr

/-- Byte lane k of a word: register bits [8k+7:8k] (R53). -/
def lane (w : Word) (k : Nat) : Byte := w.extractLsb' (8 * k) 8

/-- The word whose lanes 0 to 3 are the four bytes, little-endian (R53). -/
def wordOfLanes (l0 l1 l2 l3 : Byte) : Word := l3 ++ l2 ++ l1 ++ l0

/-! The fields of R76 and R77. -/

/-- OP, bits [31:27]. -/
def opField (w : Word) : BitVec 5 := w.extractLsb' 27 5
/-- FN, bits [26:24]. -/
def fnField (w : Word) : BitVec 3 := w.extractLsb' 24 3
/-- RD, bits [23:20]. -/
def rdField (w : Word) : RegIdx := w.extractLsb' 20 4
/-- RS1, bits [19:16]. -/
def rs1Field (w : Word) : RegIdx := w.extractLsb' 16 4
/-- RS2, bits [15:12]. -/
def rs2Field (w : Word) : RegIdx := w.extractLsb' 12 4
/-- RS3, bits [11:8]. -/
def rs3Field (w : Word) : RegIdx := w.extractLsb' 8 4
/-- IMM16, bits [15:0]. -/
def immField (w : Word) : Imm16 := w.extractLsb' 0 16

/-- A row of the opcode map with the word's fields in it: match, mask (R81) and the command the word spells if it
passes. -/
structure Row where
  mtch : Word
  mask : Word
  instr : Instr
  deriving DecidableEq, Repr

/-- The row of R81 with the word's (OP, FN), if there is one. -/
def opcodeRow (w : Word) : Option Row :=
  let rd := rdField w
  let rs1 := rs1Field w
  let rs2 := rs2Field w
  let rs3 := rs3Field w
  let imm := immField w
  match (opField w).toNat, (fnField w).toNat with
  | 0x01, 0 => some ⟨0x08000000#32, 0xff000fff#32, .add rd rs1 rs2⟩
  | 0x01, 1 => some ⟨0x09000000#32, 0xff000fff#32, .addt rd rs1 rs2⟩
  | 0x02, 0 => some ⟨0x10000000#32, 0xff000fff#32, .sub rd rs1 rs2⟩
  | 0x03, 0 => some ⟨0x18000000#32, 0xff000000#32, .shl rd rs1 imm⟩
  | 0x04, 0 => some ⟨0x20000000#32, 0xff000000#32, .shr rd rs1 imm⟩
  | 0x05, 0 => some ⟨0x28000000#32, 0xff000fff#32, .and rd rs1 rs2⟩
  | 0x06, 0 => some ⟨0x30000000#32, 0xfff00fff#32, .cmp rs1 rs2⟩
  | 0x07, 0 => some ⟨0x38000000#32, 0xff00ffff#32, .mov rd rs1⟩
  | 0x08, 0 => some ⟨0x40000000#32, 0xff0f0000#32, .ldi rd imm⟩
  | 0x09, 0 => some ⟨0x48000000#32, 0xff000fff#32, .mul rd rs1 rs2⟩
  | 0x09, 1 => some ⟨0x49000000#32, 0xff000fff#32, .mulk rd rs1 rs2⟩
  | 0x09, 2 => some ⟨0x4a000000#32, 0xff000fff#32, .mult rd rs1 rs2⟩
  | 0x0A, 0 => some ⟨0x50000000#32, 0xff0000ff#32, .div rd rs1 rs2 rs3⟩
  | 0x0B, 0 => some ⟨0x58000000#32, 0xff000fff#32, .mod rd rs1 rs2⟩
  | 0x0C, 0 => some ⟨0x60000000#32, 0xff0000ff#32, .modadd rd rs1 rs2 rs3⟩
  | 0x0D, 0 => some ⟨0x68000000#32, 0xff0000ff#32, .modmul rd rs1 rs2 rs3⟩
  | 0x0D, 1 => some ⟨0x69000000#32, 0xff0000ff#32, .modmulk rd rs1 rs2 rs3⟩
  | 0x0D, 2 => some ⟨0x6a000000#32, 0xff0000ff#32, .modmult rd rs1 rs2 rs3⟩
  | 0x0E, 0 => some ⟨0x70000000#32, 0xff0000ff#32, .modexp rd rs1 rs2 rs3⟩
  | _, _ => none

/-- `Decode(w)` of R88 for an instance with `nreg` operand registers. -/
def decode (nreg : Nat) (w : Word) : Decoded :=
  match opcodeRow w with
  | none =>
    .illegal (if (opField w).toNat = 0 ∨ 0x0F ≤ (opField w).toNat then .reservedOpcode else .reservedFunction)
  | some row =>
    if w &&& row.mask ≠ row.mtch then .illegal .mustBeZero
    else if row.instr.indexesOk nreg = false then .illegal .registerIndex
    else if row.instr.destsDistinct = false then .illegal .sameDestinations
    else .legal row.instr

/-- The command spelled by the byte lanes of one bus word, lane 0 first (R53, R75). -/
def decodeLanes (nreg : Nat) : List Byte → Decoded
  | [l0, l1, l2, l3] => decode nreg (wordOfLanes l0 l1 l2 l3)
  | _ => .illegal .notOneWord

/-- The command of a row of the opcode table, numbered as the table numbers its bits (bit 0 the least significant bit of
the one 32-bit word), read by the decoder of the default instance, NREG = 16. -/
def decodeTableWord (nbits w : Nat) : Option Instr :=
  let v : Word := BitVec.ofNat 32 (w % 2 ^ nbits)
  match decodeLanes Config.defaultParams.nreg [lane v 0, lane v 1, lane v 2, lane v 3] with
  | .legal i => some i
  | .illegal _ => none

/-! The encoder. -/

/-- Format R: OP, FN, RD, RS1, RS2, RS3, Z = 0 (R76). -/
def formatR (op : BitVec 5) (fn : BitVec 3) (rd rs1 rs2 rs3 : RegIdx) : Word :=
  op ++ fn ++ rd ++ rs1 ++ rs2 ++ rs3 ++ 0#8

/-- Format I: OP, FN = 000, RD, RS1, IMM16 (R77). -/
def formatI (op : BitVec 5) (rd rs1 : RegIdx) (imm : Imm16) : Word :=
  op ++ 0#3 ++ rd ++ rs1 ++ imm

/-- The word of a command: its opcode and function (R81), and zero in every field R78 marks 0. -/
def encode : Instr → Word
  | .add rd rs1 rs2 => formatR 0x01 0 rd rs1 rs2 0
  | .addt rd rs1 rs2 => formatR 0x01 1 rd rs1 rs2 0
  | .sub rd rs1 rs2 => formatR 0x02 0 rd rs1 rs2 0
  | .shl rd rs1 imm => formatI 0x03 rd rs1 imm
  | .shr rd rs1 imm => formatI 0x04 rd rs1 imm
  | .and rd rs1 rs2 => formatR 0x05 0 rd rs1 rs2 0
  | .cmp rs1 rs2 => formatR 0x06 0 0 rs1 rs2 0
  | .mov rd rs1 => formatR 0x07 0 rd rs1 0 0
  | .ldi rd imm => formatI 0x08 rd 0 imm
  | .mul rd rs1 rs2 => formatR 0x09 0 rd rs1 rs2 0
  | .mulk rd rs1 rs2 => formatR 0x09 1 rd rs1 rs2 0
  | .mult rd rs1 rs2 => formatR 0x09 2 rd rs1 rs2 0
  | .div rd rs1 rs2 rs3 => formatR 0x0A 0 rd rs1 rs2 rs3
  | .mod rd rs1 rs2 => formatR 0x0B 0 rd rs1 rs2 0
  | .modadd rd rs1 rs2 rs3 => formatR 0x0C 0 rd rs1 rs2 rs3
  | .modmul rd rs1 rs2 rs3 => formatR 0x0D 0 rd rs1 rs2 rs3
  | .modmulk rd rs1 rs2 rs3 => formatR 0x0D 1 rd rs1 rs2 rs3
  | .modmult rd rs1 rs2 rs3 => formatR 0x0D 2 rd rs1 rs2 rs3
  | .modexp rd rs1 rs2 rs3 => formatR 0x0E 0 rd rs1 rs2 rs3

end Sys2Proof
end

