-- ==== Sys2Proof/Machine/State.lean ====
section
/-! DEFINITION. The state of the BIC as plain data, the reasons a step can stop, and the state after power-on reset
(10_state.md; 70_reset_and_hazards.md R220). -/

namespace Sys2Proof.Machine

/-- One operand register (R20, R24): its value, a natural number (below 2^CAPBITS in every legal state), and its
definedness, held as the rising list of the indexes of its undefined data words. -/
structure OpReg where
  value : Nat
  undef : List Nat
  deriving DecidableEq, Repr

/-- STATUS.CMP (R26). The encoding 0b11 has no value here: it is never produced (U3). -/
inductive Cmp where
  | eq
  | lt
  | gt
  deriving DecidableEq, Repr

/-- STATUS.ERRCODE (R190). The codes 5 to 15 have no value here: they are never produced (U4). -/
inductive ErrCode where
  | none
  | illegal
  | underflow
  | divzero
  | overflow
  deriving DecidableEq, Repr

/-- What the pending command is: ILLEGAL or a decoded command (R40). -/
inductive Work where
  | illegal
  | command (i : Instr)
  deriving DecidableEq, Repr

/-- The hidden state of a Busy core (R45): the pending command and the operand values sampled at its acceptance (R41), one
for each source register the command uses, in the order rs1, rs2, rs3 of its fields. -/
structure Pending where
  work : Work
  operands : List Nat
  deriving DecidableEq, Repr

/-- The width of a host access on the bus (R52). -/
inductive Size where
  | byte
  | half
  | word
  deriving DecidableEq, Repr

/-- One host access: a read, or a write with the 32 bits of the bus data (R15, R52, R63). `addr` is the byte address in the
host's address space. -/
inductive Access where
  | read (addr : Nat) (size : Size)
  | write (addr : Nat) (size : Size) (data : Word)
  deriving DecidableEq, Repr

/-- One entry of the total order of steps (R64, R66, R197). -/
inductive Input where
  /-- the host performs an access -/
  | host (a : Access)
  /-- the core has its turn: it completes the pending command, if there is one -/
  | core
  /-- the reset input is asserted (R220) -/
  | resetPin
  deriving DecidableEq, Repr

/-- The state. BUSY, ERR, NBITS, DATA, the STATUS word and the irq output are computed from it (R23, R34, R39, R199). -/
structure State where
  /-- NREG, CAPWORDS, BASE of this instance; no step changes them (R8) -/
  params : Params
  /-- the operand registers x[0] .. x[NREG-1] (R20) -/
  x : List OpReg
  /-- STATUS.CMP (R26) -/
  cmp : Cmp
  /-- STATUS.ERRCODE (R27) -/
  errcode : ErrCode
  /-- the last accepted command word (R35) -/
  cmd : Word
  /-- IRQ_STATUS[3:0] (R36) -/
  irqStatus : BitVec 4
  /-- IRQ_ENABLE[3:0] (R37) -/
  irqEnable : BitVec 4
  /-- RSEL.SEL (R38) -/
  rsel : RegIdx
  /-- WIDX.IDX (R39) -/
  widx : BitVec 16
  /-- the command in flight; none while Idle (R40, R45) -/
  pending : Option Pending
  /-- the model's own: the host accesses, core turns and resets to come, oldest first (log 2) -/
  inputs : List Input
  /-- the model's own: the words driven on the bus for host reads, oldest first (log 5) -/
  responses : List Word
  deriving DecidableEq, Repr

/-- Why a step can fault. `step` itself never does: the errors of the BIC are completions (R201). -/
inductive Fault where
  /-- Raised by `Safety.strictStep` alone: the step would use a data word of operand register `reg` that nothing has
  written since power-on (R24, U1). Safe: the machine stops where the hardware goes on with some value. -/
  | undefinedUse (reg : RegIdx)
  deriving DecidableEq, Repr

/-- Why a step can be refused. -/
inductive Refusal where
  /-- Raised by an arm of `exec` whose command has no meaning yet; no arm does. Safe. -/
  | notModelled (mnemonic : String)
  /-- Raised by `hostTurn`: the access is outside the window, where the platform decides what answers (R50, R71). Safe. -/
  | outsideWindow (addr : Nat)
  /-- Raised by `Safety.strictStep` alone: an access narrower than 32 bits or not aligned to 4 bytes (R52, U6). Safe. -/
  | notWordAccess (addr : Nat)
  deriving DecidableEq, Repr

/-- An operand register right after power-on: every data word undefined (R24, R220). The value 0 is a DESIGN CHOICE
(log 1): the spec gives none. -/
def OpReg.powerOn (p : Params) : OpReg := { value := 0, undef := List.range p.capWords }

/-- The state R220's table gives for the instance `p`, with no input waiting and no response given. -/
def State.powerOn (p : Params) : State where
  params := p
  x := List.replicate p.nreg (OpReg.powerOn p)
  cmp := .eq
  errcode := .none
  cmd := 0
  irqStatus := 0
  irqEnable := 0
  rsel := 0
  widx := 0
  pending := none
  inputs := []
  responses := []

/-- The machine right after power-on reset, for the default instance (R8, R220). -/
def State.reset : State := State.powerOn Config.defaultParams

end Sys2Proof.Machine
end

