-- ==== Sys2Proof/Machine/Operands.lean ====
section
/-! DEFINITION. The operands of a command and the words of an operand register: significant bit length (R12), data words
(R54), the source and destination registers of each command (R22), and the value an operand has (R41). -/

namespace Sys2Proof.Machine

/-- `nbits(v)`: 0 if v = 0, otherwise the index of the highest set bit plus one (R12). -/
def nbits (v : Nat) : Nat := if v = 0 then 0 else Nat.log2 v + 1

/-- Data word k of a value: bits [32k+31:32k] (R11, R54). -/
def wordOf (v k : Nat) : Word := BitVec.ofNat 32 (v >>> (32 * k))

/-- The register with its data word k replaced by w and that word defined (R56). -/
def OpReg.setWord (r : OpReg) (k : Nat) (w : Word) : OpReg where
  value := r.value - (wordOf r.value k).toNat * 2 ^ (32 * k) + w.toNat * 2 ^ (32 * k)
  undef := r.undef.filter (· != k)

/-- A register a command has written: every data word defined (R24, R42). -/
def OpReg.written (v : Nat) : OpReg := { value := v, undef := [] }

/-- The register's value is defined: all its data words are (R24). -/
def OpReg.isDefined (r : OpReg) : Bool := r.undef.isEmpty

/-- Operand register i. An index ≥ NREG names no register (R21): no legal command and no performed access reads it, and the
default here is never seen. -/
def State.reg (s : State) (i : RegIdx) : OpReg := s.x.getD i.toNat (OpReg.written 0)

/-- `x[i]`, the value of operand register i (R14). -/
def State.val (s : State) (i : RegIdx) : Nat := (s.reg i).value

/-- The source registers of a command, in field order (R22). -/
def sources : Instr → List RegIdx
  | .add _ rs1 rs2 => [rs1, rs2]
  | .addt _ rs1 rs2 => [rs1, rs2]
  | .sub _ rs1 rs2 => [rs1, rs2]
  | .shl _ rs1 _ => [rs1]
  | .shr _ rs1 _ => [rs1]
  | .and _ rs1 rs2 => [rs1, rs2]
  | .cmp rs1 rs2 => [rs1, rs2]
  | .mov _ rs1 => [rs1]
  | .ldi _ _ => []
  | .mul _ rs1 rs2 => [rs1, rs2]
  | .mulk _ rs1 rs2 => [rs1, rs2]
  | .mult _ rs1 rs2 => [rs1, rs2]
  | .div _ rs1 rs2 _ => [rs1, rs2]
  | .mod _ rs1 rs2 => [rs1, rs2]
  | .modadd _ rs1 rs2 rs3 => [rs1, rs2, rs3]
  | .modmul _ rs1 rs2 rs3 => [rs1, rs2, rs3]
  | .modmulk _ rs1 rs2 rs3 => [rs1, rs2, rs3]
  | .modmult _ rs1 rs2 rs3 => [rs1, rs2, rs3]
  | .modexp _ rs1 rs2 rs3 => [rs1, rs2, rs3]

/-- The destination registers of a command (R22). -/
def dests : Instr → List RegIdx
  | .add rd _ _ => [rd]
  | .addt rd _ _ => [rd]
  | .sub rd _ _ => [rd]
  | .shl rd _ _ => [rd]
  | .shr rd _ _ => [rd]
  | .and rd _ _ => [rd]
  | .cmp _ _ => []
  | .mov rd _ => [rd]
  | .ldi rd _ => [rd]
  | .mul rd _ _ => [rd]
  | .mulk rd _ _ => [rd]
  | .mult rd _ _ => [rd]
  | .div rd _ _ rs3 => [rd, rs3]
  | .mod rd _ _ => [rd]
  | .modadd rd _ _ _ => [rd]
  | .modmul rd _ _ _ => [rd]
  | .modmulk rd _ _ _ => [rd]
  | .modmult rd _ _ _ => [rd]
  | .modexp rd _ _ _ => [rd]

/-- The values of the source registers, as they are sampled at acceptance (R41). -/
def State.sample (s : State) (i : Instr) : List Nat := (sources i).map s.val

/-- Operand k (0, 1, 2 for the command's a, b, m) of the command in flight, whose source register is r: the sampled value
(R41). Where no value is sampled for it, the register's own value answers (DESIGN CHOICE, log 10): no step of the machine
comes to that case. -/
def State.operand (s : State) (k : Nat) (r : RegIdx) : Nat :=
  match s.pending with
  | some p => (p.operands[k]?).getD (s.val r)
  | none => s.val r

/-- The unsigned value of IMM16, zero-extended (R79). -/
def immValue (imm : Imm16) : Nat := imm.toNat

end Sys2Proof.Machine
end

