-- ==== Sys2Proof/Machine/Flags.lean ====
section
/-! DEFINITION. The flags: the comparison result (R26, R109), the error code (R190), the STATUS word (R34), the event flags
and the interrupt output (R36, R198, R199, R200). -/

namespace Sys2Proof.Machine

/-- The 2-bit encoding of STATUS.CMP (R26). -/
def Cmp.bits : Cmp → BitVec 2
  | .eq => 0b00#2
  | .lt => 0b01#2
  | .gt => 0b10#2

/-- The 4-bit encoding of STATUS.ERRCODE (R190). -/
def ErrCode.bits : ErrCode → BitVec 4
  | .none => 0#4
  | .illegal => 1#4
  | .underflow => 2#4
  | .divzero => 3#4
  | .overflow => 4#4

/-- Scan the bits n-1 down to 0; the first differing bit decides (R109). -/
def scanDown : Nat → Nat → Nat → Cmp
  | 0, _, _ => .eq
  | n + 1, a, b =>
    if a.testBit n = b.testBit n then scanDown n a b
    else if a.testBit n then .gt
    else .lt

/-- The comparator: first by significant bit length, then by the highest differing bit (R109). -/
def magCompare (a b : Nat) : Cmp :=
  if nbits a < nbits b then .lt
  else if nbits b < nbits a then .gt
  else scanDown (nbits a) a b

/-- STATUS.BUSY: a command is in flight (R34, R40, R42). -/
def State.busy (s : State) : Bool := s.pending.isSome

/-- STATUS.ERR: ERRCODE ≠ 0 (R27, R34). -/
def State.err (s : State) : Bool := s.errcode != .none

/-- The STATUS word (R34): reserved [31:8], ERRCODE [7:4], CMP [3:2], ERR [1], BUSY [0]. -/
def State.statusWord (s : State) : Word :=
  0#24 ++ s.errcode.bits ++ s.cmp.bits ++ BitVec.ofBool s.err ++ BitVec.ofBool s.busy

/-! The event flags of IRQ_STATUS (R36). -/

/-- DONE, bit 0. -/
def flagDone : BitVec 4 := 0b0001#4
/-- ERROR, bit 1. -/
def flagError : BitVec 4 := 0b0010#4
/-- OVERRUN, bit 2. -/
def flagOverrun : BitVec 4 := 0b0100#4
/-- ACCESS, bit 3. -/
def flagAccess : BitVec 4 := 0b1000#4

/-- The flags a completion with code `e` sets: DONE, and ERROR if e ≠ 0 (R42, R198). -/
def completionFlags (e : ErrCode) : BitVec 4 := flagDone ||| (if e = .none then 0#4 else flagError)

/-- A write of word v to IRQ_STATUS clears flag i iff v[i] = 1 (R200). -/
def clearFlags (flags : BitVec 4) (v : Word) : BitVec 4 := flags &&& ~~~(v.extractLsb' 0 4)

/-- The interrupt output: some flag is both set and enabled (R199). -/
def State.irq (s : State) : Bool := s.irqStatus &&& s.irqEnable != 0#4

end Sys2Proof.Machine
end

