-- ==== Sys2Proof/Machine/Ops.lean ====
section
/-! DEFINITION. The operations every meaning and every host access is written over: writing an operand register,
completing a command with or without an error, accepting a command word, and the two resets. The BIC has no memory
(R44, R51; log 11), and no trap entry or return: an error is `State.raise` (R201, R202). -/

namespace Sys2Proof.Machine

/-- The three outcomes of a step of this machine. -/
abbrev Result := Host.Outcome State Fault Refusal

/-- `x[i] <- v` by a command: every data word becomes defined (R14, R42). An index ≥ NREG names no register. -/
def State.writeX (s : State) (i : RegIdx) (v : Nat) : State := { s with x := s.x.set i.toNat (OpReg.written v) }

/-- The part of the completion step that every command shares (R42): ERRCODE (and so ERR) is `e`, DONE is set, ERROR too if
e ≠ 0, and the core is Idle. -/
def State.complete (s : State) (e : ErrCode) : State :=
  { s with errcode := e, irqStatus := s.irqStatus ||| completionFlags e, pending := none }

/-- `raise E` (R16, R195): the command completes with code E and writes nothing. This is what the BIC has in place of
taking an exception (R201): nothing is saved, no mode changes, control goes nowhere. -/
def State.raise (s : State) (e : ErrCode) : Result := .next (s.complete e)

/-- Complete without error, writing v to x[rd] (R42). -/
def State.finish (s : State) (rd : RegIdx) (v : Nat) : Result := .next ((s.writeX rd v).complete .none)

/-- Complete with v if it fits in CAPBITS bits, else with OVERFLOW (R9, R193). -/
def State.finishFitting (s : State) (rd : RegIdx) (v : Nat) : Result :=
  if s.params.bound ≤ v then s.raise .overflow else s.finish rd v

/-- What `Decode` gives the core to do (R40). -/
def workOf : Decoded → Work
  | .illegal _ => .illegal
  | .legal i => .command i

/-- The sampling of R41: an ILLEGAL command reads no operand (R196). -/
def State.sampleFor (s : State) : Decoded → List Nat
  | .illegal _ => []
  | .legal i => s.sample i

/-- Acceptance of command word w by an Idle core (R40): CMD, BUSY, ERRCODE and ERR, the decoded command and its sampled
operands. -/
def State.accept (s : State) (w : Word) : State :=
  let d := decode s.params.nreg w
  { s with cmd := w, errcode := .none, pending := some { work := workOf d, operands := s.sampleFor d } }

/-- A host write of w to CMD (R40): accepted while Idle; while Busy discarded, with OVERRUN set. -/
def State.issue (s : State) (w : Word) : State :=
  if s.busy then { s with irqStatus := s.irqStatus ||| flagOverrun } else s.accept w

/-- Soft reset (R221, R222): every row of R220 but the operand registers, which keep their values and their definedness. -/
def State.softReset (s : State) : State :=
  { State.powerOn s.params with x := s.x, inputs := s.inputs, responses := s.responses }

/-- Power-on reset (R220, R222). What the host will do and what it has read are not state of the BIC and stay. -/
def State.powerOnReset (s : State) : State :=
  { State.powerOn s.params with inputs := s.inputs, responses := s.responses }

end Sys2Proof.Machine
end

