-- ==== Sys2Proof/Machine/CoreArith.lean ====
section
/-! DEFINITION. 40_core_arith.md: the adder, the subtractor, the shifter, the AND unit, the comparator, and the commands
ADD, ADDT, SUB, SHL, SHR, AND, CMP, MOV, LDI. -/

namespace Sys2Proof.Machine

/-- The majority of three bits: the carry of R100. -/
def majority (p q r : Bool) : Bool := (p && q) || (p && r) || (q && r)

/-- n cells of the ripple-carry adder, from the low bit up, with carry in c; the carry out is the top bit (R100). -/
def rippleCells : Nat → Nat → Nat → Bool → Nat
  | 0, _, _, c => c.toNat
  | n + 1, a, b, c =>
    ((a.testBit 0 ^^ b.testBit 0) ^^ c).toNat
      + 2 * rippleCells n (a >>> 1) (b >>> 1) (majority (a.testBit 0) (b.testBit 0) c)

/-- Ripple-carry addition over max(nbits), overflow kept (R100). -/
def rippleAdd (a b : Nat) : Nat := rippleCells (max (nbits a) (nbits b)) a b false

/-- Subtraction by two's complement at the minuend's length, for b ≤ a: flip, add one, add, each at width n (R104). -/
def complementSub (a b : Nat) : Nat :=
  let n := nbits a
  let t1 := (2 ^ n - 1) - b
  let t2 := (t1 + 1) % 2 ^ n
  (t2 + a) % 2 ^ n

/-- ADD (R102). -/
def execAdd (rd rs1 rs2 : RegIdx) (s : State) : Result :=
  s.finishFitting rd (rippleAdd (s.operand 0 rs1) (s.operand 1 rs2))

/-- ADDT (R103): the sum truncates to the length of the first operand. -/
def execAddt (rd rs1 rs2 : RegIdx) (s : State) : Result :=
  s.finish rd (rippleAdd (s.operand 0 rs1) (s.operand 1 rs2) % 2 ^ nbits (s.operand 0 rs1))

/-- SUB (R105). -/
def execSub (rd rs1 rs2 : RegIdx) (s : State) : Result :=
  if s.operand 0 rs1 < s.operand 1 rs2 then s.raise .underflow
  else s.finish rd (complementSub (s.operand 0 rs1) (s.operand 1 rs2))

/-- SHL (R106). -/
def execShl (rd rs1 : RegIdx) (imm : Imm16) (s : State) : Result :=
  s.finishFitting rd (s.operand 0 rs1 <<< immValue imm)

/-- SHR (R107). -/
def execShr (rd rs1 : RegIdx) (imm : Imm16) (s : State) : Result :=
  s.finish rd (s.operand 0 rs1 >>> immValue imm)

/-- AND (R108). -/
def execAnd (rd rs1 rs2 : RegIdx) (s : State) : Result :=
  s.finish rd (s.operand 0 rs1 &&& s.operand 1 rs2)

/-- CMP (R110): the one command that writes STATUS.CMP, and no register. -/
def execCmp (rs1 rs2 : RegIdx) (s : State) : Result :=
  .next ({ s with cmp := magCompare (s.operand 0 rs1) (s.operand 1 rs2) }.complete .none)

/-- MOV (R111). -/
def execMov (rd rs1 : RegIdx) (s : State) : Result := s.finish rd (s.operand 0 rs1)

/-- LDI (R112). -/
def execLdi (rd : RegIdx) (imm : Imm16) (s : State) : Result := s.finish rd (immValue imm)

end Sys2Proof.Machine
end

