-- ==== Sys2Proof/Machine/Multiply.lean ====
section
/-! DEFINITION. 41_multiply.md: the three multiplication algorithms and the commands MUL, MULK, MULT. The sums inside the
algorithms are written `+`: the adder of R100 gives exactly that sum. -/

namespace Sys2Proof.Machine

/-! Schoolbook (R131). -/

/-- The loop of R131 over the n low bits of a, low to high, with its accumulator and the running doubling copy f. -/
def schoolLoop : Nat → Nat → Nat → Nat → Nat
  | 0, _, acc, _ => acc
  | n + 1, a, acc, f => schoolLoop n (a >>> 1) (if a.testBit 0 then acc + f else acc) (f <<< 1)

/-- `School(a, b)` (R131). -/
def school (a b : Nat) : Nat := schoolLoop (nbits a) a 0 b

/-! Divide and conquer (R132). -/

/-- `Kara(a, b)` of R132 with a bound on the recursion: a + b falls at every level, so a + b levels are enough (log 16). -/
def karaFuel : Nat → Nat → Nat → Nat
  | 0, _, _ => 0
  | k + 1, a, b =>
    if a = 0 ∨ b = 0 then 0
    else if a = 1 then b
    else if b = 1 then a
    else
      let n := max (nbits a) (nbits b)
      let h := (n + 1) / 2
      let p1 := karaFuel k (a >>> h) (b >>> h)
      let p2 := karaFuel k (a % 2 ^ h) (b % 2 ^ h)
      let p3 := karaFuel k ((a >>> h) + a % 2 ^ h) ((b >>> h) + b % 2 ^ h)
      (p1 <<< (2 * h)) + ((p3 - p1 - p2) <<< h) + p2

/-- `Kara(a, b)` (R132). -/
def kara (a b : Nat) : Nat := karaFuel (a + b) a b

/-! Transform (R133, R134). -/

/-- The number of base-16 digits, ⌈nbits(v)/4⌉ (R133, 92 D36). -/
def digitCount (v : Nat) : Nat := (nbits v + 3) / 4

/-- The l low base-16 digits of v, least significant first: v[4k+3:4k] (R133). -/
def hexDigits : Nat → Nat → List Nat
  | 0, _ => []
  | l + 1, v => v % 16 :: hexDigits l (v >>> 4)

/-- The least power of two ≥ n, for n ≥ 1 (R133). -/
def nextPow2 (n : Nat) : Nat := 2 ^ nbits (n - 1)

/-- Zero coefficients appended up to length n (R133). -/
def padTo (n : Nat) (cs : List Nat) : List Nat := cs ++ List.replicate (n - cs.length) 0

/-- Coefficient-wise sum of two polynomials. -/
def addCoeffs : List Nat → List Nat → List Nat
  | [], ys => ys
  | xs, [] => xs
  | x :: xs, y :: ys => (x + y) :: addCoeffs xs ys

/-- Linear convolution: coefficient k is the sum of A[i]·B[j] over i + j = k (R133). A zero coefficient adds no row. -/
def convolve : List Nat → List Nat → List Nat
  | [], _ => []
  | a :: as, bs =>
    if a = 0 then 0 :: convolve as bs
    else addCoeffs (bs.map (a * ·)) (0 :: convolve as bs)

/-- What the inverse transform of the pointwise product of two forward transforms of length n recovers: the cyclic
convolution of length n of the two sequences, each coefficient the exact integer that R134 requires after rounding. The
transform itself is a black box in the spec (R7, R133; DEDUCED, log 9). -/
def transformProduct (n : Nat) (as bs : List Nat) : List Nat :=
  let c := convolve as bs
  addCoeffs (c.take n) (c.drop n)

/-- Carry-propagation of coefficients into base-16 digits, the last carry on top (R133). -/
def carryDigits : List Nat → Nat → List Nat
  | [], carry => [carry]
  | c :: cs, carry => (c + carry) % 16 :: carryDigits cs ((c + carry) / 16)

/-- The value of a base-16 digit sequence, least significant first (R133). -/
def digitsValue : List Nat → Nat
  | [] => 0
  | d :: ds => d + 16 * digitsValue ds

/-- `Trans(a, b)` (R133 under R134). -/
def trans (a b : Nat) : Nat :=
  if a = 0 ∨ b = 0 then 0
  else
    let la := digitCount a
    let lb := digitCount b
    let n := nextPow2 (la + lb - 1)
    let c := transformProduct n (padTo n (hexDigits la a)) (padTo n (hexDigits lb b))
    digitsValue (carryDigits c 0)

/-- MUL (R135). -/
def execMul (rd rs1 rs2 : RegIdx) (s : State) : Result :=
  s.finishFitting rd (school (s.operand 0 rs1) (s.operand 1 rs2))

/-- MULK (R136). -/
def execMulk (rd rs1 rs2 : RegIdx) (s : State) : Result :=
  s.finishFitting rd (kara (s.operand 0 rs1) (s.operand 1 rs2))

/-- MULT (R137). -/
def execMult (rd rs1 rs2 : RegIdx) (s : State) : Result :=
  s.finishFitting rd (trans (s.operand 0 rs1) (s.operand 1 rs2))

end Sys2Proof.Machine
end

