-- ==== Sys2Proof/Machine/Divide.lean ====
section
/-! DEFINITION. 42_divide.md: bit-recursive long division and the commands DIV and MOD. -/

namespace Sys2Proof.Machine

/-- What QuadDiv does on the way back from one level: double, take in the shifted-off bit, subtract once if needed (R150). -/
def quadDivStep (b : Nat) (bit : Bool) (qr : Nat × Nat) : Nat × Nat :=
  let r := 2 * qr.2 + bit.toNat
  if b ≤ r then (2 * qr.1 + 1, r - b) else (2 * qr.1, r)

/-- `QuadDiv(a, b)` of R150 over the n low bits of a: one recursion per bit of the dividend. -/
def quadDivBits : Nat → Nat → Nat → Nat × Nat
  | 0, _, _ => (0, 0)
  | n + 1, a, b => if a = 0 then (0, 0) else quadDivStep b (a.testBit 0) (quadDivBits n (a >>> 1) b)

/-- `QuadDiv(a, b)`, for b > 0: the quotient and the remainder (R150). -/
def quadDiv (a b : Nat) : Nat × Nat := quadDivBits (nbits a) a b

/-- The reduction of the modular commands: the remainder of QuadDiv (R153, R165). -/
def reduce (a m : Nat) : Nat := (quadDiv a m).2

/-- DIV (R151): the zero divisor is checked first; quotient to x[rd], remainder to x[rs3], in one completion step. -/
def execDiv (rd rs1 rs2 rs3 : RegIdx) (s : State) : Result :=
  if s.operand 1 rs2 = 0 then s.raise .divzero
  else
    let qr := quadDiv (s.operand 0 rs1) (s.operand 1 rs2)
    (s.writeX rd qr.1).finish rs3 qr.2

/-- MOD (R152). -/
def execMod (rd rs1 rs2 : RegIdx) (s : State) : Result :=
  if s.operand 1 rs2 = 0 then s.raise .divzero
  else s.finish rd (reduce (s.operand 0 rs1) (s.operand 1 rs2))

end Sys2Proof.Machine
end

