-- ==== Sys2Proof/Machine/Modular.lean ====
section
/-! DEFINITION. 43_modular.md: the modular adder, multiplier and exponentiator and the commands MODADD, MODMUL, MODMULK,
MODMULT, MODEXP. -/

namespace Sys2Proof.Machine

/-- One level of ModExp on the way back: square and reduce, then multiply in the base and reduce if the bit is 1 (R170). -/
def modExpStep (a m : Nat) (bit : Bool) (r : Nat) : Nat :=
  let sq := reduce (school r r) m
  if bit then reduce (school sq a) m else sq

/-- `ModExp(a, e, m)` of R170 over the n low bits of e. The base case returns 1 unreduced (C1). -/
def modExpBits : Nat → Nat → Nat → Nat → Nat
  | 0, _, _, _ => 1
  | n + 1, a, e, m => if e = 0 then 1 else modExpStep a m (e.testBit 0) (modExpBits n a (e >>> 1) m)

/-- `ModExp(a, e, m)`, for m > 0 (R170). -/
def modExp (a e m : Nat) : Nat := modExpBits (nbits e) a e m

/-- What every modular command shares (R165): a zero modulus raises DIVZERO, else the result v is written. -/
def State.finishModular (s : State) (rd : RegIdx) (m v : Nat) : Result :=
  if m = 0 then s.raise .divzero else s.finish rd v

/-- MODADD (R166): the sum at full width. -/
def execModadd (rd rs1 rs2 rs3 : RegIdx) (s : State) : Result :=
  s.finishModular rd (s.operand 2 rs3) (reduce (rippleAdd (s.operand 0 rs1) (s.operand 1 rs2)) (s.operand 2 rs3))

/-- MODMUL (R167). -/
def execModmul (rd rs1 rs2 rs3 : RegIdx) (s : State) : Result :=
  s.finishModular rd (s.operand 2 rs3) (reduce (school (s.operand 0 rs1) (s.operand 1 rs2)) (s.operand 2 rs3))

/-- MODMULK (R168). -/
def execModmulk (rd rs1 rs2 rs3 : RegIdx) (s : State) : Result :=
  s.finishModular rd (s.operand 2 rs3) (reduce (kara (s.operand 0 rs1) (s.operand 1 rs2)) (s.operand 2 rs3))

/-- MODMULT (R169). -/
def execModmult (rd rs1 rs2 rs3 : RegIdx) (s : State) : Result :=
  s.finishModular rd (s.operand 2 rs3) (reduce (trans (s.operand 0 rs1) (s.operand 1 rs2)) (s.operand 2 rs3))

/-- MODEXP (R171): the zero modulus is checked for every exponent, 0 included. -/
def execModexp (rd rs1 rs2 rs3 : RegIdx) (s : State) : Result :=
  s.finishModular rd (s.operand 2 rs3) (modExp (s.operand 0 rs1) (s.operand 1 rs2) (s.operand 2 rs3))

end Sys2Proof.Machine
end

