-- ==== Sys2Proof/Machine/Window.lean ====
section
/-! DEFINITION. The register window (10_state.md R28 to R39; 20_memory.md R50 to R60): what a host read returns and does,
and what a host write does. -/

namespace Sys2Proof.Machine

/-- The registers of the window (R28). -/
inductive WinReg where
  | id
  | capbits
  | nreg
  | ctrl
  | status
  | cmd
  | irqStatus
  | irqEnable
  | rsel
  | widx
  | data
  | nbits
  | reserved
  deriving DecidableEq, Repr

/-- The register at a word offset of the window (R28, R29). -/
def winRegAt : Nat → WinReg
  | 0x00 => .id
  | 0x04 => .capbits
  | 0x08 => .nreg
  | 0x0C => .ctrl
  | 0x10 => .status
  | 0x14 => .cmd
  | 0x18 => .irqStatus
  | 0x1C => .irqEnable
  | 0x20 => .rsel
  | 0x24 => .widx
  | 0x28 => .data
  | 0x2C => .nbits
  | _ => .reserved

/-- The register an address of the window reaches: address bits [7:2] alone are decoded (R50, R52). -/
def State.winReg (s : State) (addr : Nat) : WinReg := winRegAt ((addr - s.params.base) &&& 0xFC)

/-- The address lies in the window, BASE to BASE + 0xFF (R50). -/
def State.inWindow (s : State) (addr : Nat) : Bool := s.params.base ≤ addr && addr < s.params.base + 256

/-- The identification constant (R30). -/
def idWord : Word := 0x42494301#32

/-- RSEL.SEL and WIDX.IDX address a data word that exists (R38, R39, R55). -/
def State.selectsWord (s : State) : Bool := s.rsel.toNat < s.params.nreg && s.widx.toNat < s.params.capWords

/-- WIDX.IDX after a performed DATA access (R57). -/
def State.advance (s : State) : State := { s with widx := s.widx + 1 }

/-- A DATA or NBITS access while Busy is blocked and sets ACCESS (R59). -/
def State.blocked (s : State) : State := { s with irqStatus := s.irqStatus ||| flagAccess }

/-- DATA read (R55): the word returned, and the state after. -/
def State.readData (s : State) : Word × State :=
  if s.busy then (0, s.blocked)
  else (if s.selectsWord then wordOf (s.val s.rsel) s.widx.toNat else 0, s.advance)

/-- NBITS read (R58). -/
def State.readNbits (s : State) : Word × State :=
  if s.busy then (0, s.blocked)
  else (if s.rsel.toNat < s.params.nreg then BitVec.ofNat 32 (Machine.nbits (s.val s.rsel)) else 0, s)

/-- DATA write (R56). -/
def State.writeData (s : State) (w : Word) : State :=
  if s.busy then s.blocked
  else if s.selectsWord then
    { s with x := s.x.set s.rsel.toNat ((s.reg s.rsel).setWord s.widx.toNat w) }.advance
  else s.advance

/-- What a host read of a register of the window returns, and the state after (R28 to R39, R60). -/
def State.readWin (s : State) : WinReg → Word × State
  | .id => (idWord, s)
  | .capbits => (BitVec.ofNat 32 s.params.capBits, s)
  | .nreg => (BitVec.ofNat 32 s.params.nreg, s)
  | .ctrl => (0, s)
  | .status => (s.statusWord, s)
  | .cmd => (s.cmd, s)
  | .irqStatus => (s.irqStatus.setWidth 32, s)
  | .irqEnable => (s.irqEnable.setWidth 32, s)
  | .rsel => (s.rsel.setWidth 32, s)
  | .widx => (s.widx.setWidth 32, s)
  | .data => s.readData
  | .nbits => s.readNbits
  | .reserved => (0, s)

/-- A host write of w to CTRL (R33). -/
def State.writeCtrl (s : State) (w : Word) : State := if w.getLsbD 0 then s.softReset else s

/-- What a host write of w to a register of the window does (R28 to R40, R60). Writes to read-only registers and reserved
offsets are ignored (R29). -/
def State.writeWin (s : State) (w : Word) : WinReg → State
  | .id | .capbits | .nreg | .status | .nbits | .reserved => s
  | .ctrl => s.writeCtrl w
  | .cmd => s.issue w
  | .irqStatus => { s with irqStatus := clearFlags s.irqStatus w }
  | .irqEnable => { s with irqEnable := w.extractLsb' 0 4 }
  | .rsel => { s with rsel := w.extractLsb' 0 4 }
  | .widx => { s with widx := w.extractLsb' 0 16 }
  | .data => s.writeData w

/-- The word driven on the bus for a host read (R52); the host's record of it is `responses` (log 5). -/
def State.respond (s : State) (v : Word) : State := { s with responses := s.responses ++ [v] }

/-- The host performs one access (R15, R52, R64). The access width and the address bits [1:0] are ignored: the access is a
32-bit access to the word (R52; log 7). Outside the window the BIC answers nothing (R50, R71; log 8). -/
def hostTurn (a : Access) (s : State) : Result :=
  match a with
  | .read addr _ =>
    if s.inWindow addr then
      let (v, t) := s.readWin (s.winReg addr)
      .next (t.respond v)
    else .refused (.outsideWindow addr)
  | .write addr _ w =>
    if s.inWindow addr then .next (s.writeWin w (s.winReg addr))
    else .refused (.outsideWindow addr)

end Sys2Proof.Machine
end

