-- ==== Sys2Proof/Machine/Turns.lean ====
section
/-! DEFINITION. The turn of the core: the completion of the pending command (R42, R63). -/

namespace Sys2Proof.Machine

/-- The core's turn. A pending command completes: an ILLEGAL one with code 1 and no other effect (R191), a legal one by its
meaning. An Idle core does no work (R209). -/
def coreTurn (s : State) : Result :=
  match s.pending with
  | none => .next s
  | some p =>
    match p.work with
    | .illegal => s.raise .illegal
    | .command i => exec i s

/-- One entry of `inputs` is performed. -/
def perform (e : Input) (s : State) : Result :=
  match e with
  | .host a => hostTurn a s
  | .core => coreTurn s
  | .resetPin => .next s.powerOnReset

/-- The state in which an Idle core has just accepted word w and its completion comes next (log 4). -/
def State.withCommand (s : State) (w : Word) : State := { s.accept w with inputs := .core :: s.inputs }

end Sys2Proof.Machine
end

