-- ==== Sys2Proof/Machine/Step.lean ====
section
/-! DEFINITION. One step of the machine: the next entry of the total order of host accesses, core turns and resets (R64,
R66, R197). -/

namespace Sys2Proof.Machine

/-- One step. When the host has nothing more to do, the core has its turn, so a pending command completes (R231; log 3). -/
def step (s : State) : Host.Outcome State Fault Refusal :=
  match s.inputs with
  | [] => coreTurn s
  | e :: rest => perform e { s with inputs := rest }

/-- s with the command word w (the table's bit numbers; one 32-bit word, the bits from nbits up zero) as the command in
flight, accepted and sampled in s, and its completion as the next step (log 4). -/
def State.withFetchWord (s : State) (nbits w : Nat) : State := s.withCommand (BitVec.ofNat 32 (w % 2 ^ nbits))

end Sys2Proof.Machine
end

