-- ==== Sys2Proof/Machine/HostProgram.lean ====
section
/-! DEFINITION. The host's side of the commands: the assembler syntax (R85), the pseudo-instructions (R86) and the accesses
of the host-program notation (R87). None of it is state of the BIC. -/

namespace Sys2Proof.Machine

/-- The mnemonic of a command (R81). -/
def mnemonic : Instr → String
  | .add .. => "ADD"
  | .addt .. => "ADDT"
  | .sub .. => "SUB"
  | .shl .. => "SHL"
  | .shr .. => "SHR"
  | .and .. => "AND"
  | .cmp .. => "CMP"
  | .mov .. => "MOV"
  | .ldi .. => "LDI"
  | .mul .. => "MUL"
  | .mulk .. => "MULK"
  | .mult .. => "MULT"
  | .div .. => "DIV"
  | .mod .. => "MOD"
  | .modadd .. => "MODADD"
  | .modmul .. => "MODMUL"
  | .modmulk .. => "MODMULK"
  | .modmult .. => "MODMULT"
  | .modexp .. => "MODEXP"

/-- A register in assembler text: r0 .. r15 (R85). -/
def regText (r : RegIdx) : String := "r" ++ toString r.toNat

/-- An immediate in assembler text: #n, n decimal (R85). -/
def immText (imm : Imm16) : String := "#" ++ toString (immValue imm)

/-- The operands of a command in assembler order (R85): DIV writes its remainder destination second. -/
def operandTexts : Instr → List String
  | .add rd rs1 rs2 | .addt rd rs1 rs2 | .sub rd rs1 rs2 | .and rd rs1 rs2 | .mul rd rs1 rs2 | .mulk rd rs1 rs2
  | .mult rd rs1 rs2 | .mod rd rs1 rs2 => [regText rd, regText rs1, regText rs2]
  | .shl rd rs1 imm | .shr rd rs1 imm => [regText rd, regText rs1, immText imm]
  | .cmp rs1 rs2 => [regText rs1, regText rs2]
  | .mov rd rs1 => [regText rd, regText rs1]
  | .ldi rd imm => [regText rd, immText imm]
  | .div rd rs1 rs2 rs3 => [regText rd, regText rs3, regText rs1, regText rs2]
  | .modadd rd rs1 rs2 rs3 | .modmul rd rs1 rs2 rs3 | .modmulk rd rs1 rs2 rs3 | .modmult rd rs1 rs2 rs3
  | .modexp rd rs1 rs2 rs3 => [regText rd, regText rs1, regText rs2, regText rs3]

/-- The assembler text of a command (R85). -/
def assembly (i : Instr) : String := mnemonic i ++ " " ++ String.intercalate ", " (operandTexts i)

/-- The pseudo-instructions (R86). -/
inductive Pseudo where
  | clr (rd : RegIdx)
  | sqr (rd rs : RegIdx)
  | dbl (rd rs : RegIdx)
  | half (rd rs : RegIdx)
  | modsqr (rd rs rm : RegIdx)
  | nopr (rs : RegIdx)
  deriving DecidableEq, Repr

/-- The expansion of a pseudo-instruction (R86). -/
def expand : Pseudo → Instr
  | .clr rd => .ldi rd 0
  | .sqr rd rs => .mul rd rs rs
  | .dbl rd rs => .shl rd rs 1
  | .half rd rs => .shr rd rs 1
  | .modsqr rd rs rm => .modmul rd rs rs rm
  | .nopr rs => .mov rs rs

/-- The offset of a register of the window (R28); for the reserved offsets, the first of them. -/
def WinReg.offset : WinReg → Nat
  | .id => 0x00
  | .capbits => 0x04
  | .nreg => 0x08
  | .ctrl => 0x0C
  | .status => 0x10
  | .cmd => 0x14
  | .irqStatus => 0x18
  | .irqEnable => 0x1C
  | .rsel => 0x20
  | .widx => 0x24
  | .data => 0x28
  | .nbits => 0x2C
  | .reserved => 0x30

/-- `R REG`: an aligned 32-bit read of the register (R15, R87). -/
def hostRead (p : Params) (r : WinReg) : Input := .host (.read (p.base + r.offset) .word)

/-- `W REG, v`: an aligned 32-bit write of the register (R15, R87). -/
def hostWrite (p : Params) (r : WinReg) (v : Word) : Input := .host (.write (p.base + r.offset) .word v)

/-- `ISSUE cmd`: a write of the command's word to CMD (R87). -/
def hostIssue (p : Params) (i : Instr) : Input := hostWrite p .cmd (encode i)

end Sys2Proof.Machine
end

