-- ==== Sys2Proof/Safety.lean ====
section
/-! DEFINITION. What a safe run is: the invariant of the state, and the strict machine, which stops where the spec tells a
model to stop (a use of an undefined value, R24 and U1; an access that is not an aligned 32-bit access, R52 and U6) and is
`step` everywhere else. -/

namespace Sys2Proof.Machine

/-- Strictly rising. -/
def rising : List Nat → Bool
  | [] => true
  | [_] => true
  | k :: l :: ks => k < l && rising (l :: ks)

/-- An operand register is legal: its value fits (R20), and its undefined words are words it has. -/
abbrev OpReg.wf (p : Params) (r : OpReg) : Prop :=
  r.value < p.bound ∧ rising r.undef = true ∧ r.undef.all (· < p.capWords) = true

/-- The command in flight is the one CMD holds, decoded, with the values its source registers have (R40, R41), and the error
code is clear while it runs (R40). -/
abbrev State.pendingOk (s : State) : Prop :=
  ∀ p ∈ s.pending, p.work = workOf (decode s.params.nreg s.cmd) ∧
    p.operands = s.sampleFor (decode s.params.nreg s.cmd) ∧ s.errcode = .none

/-- The invariant of the machine. -/
abbrev State.Inv (s : State) : Prop :=
  s.params.wf ∧ s.x.length = s.params.nreg ∧ (∀ r ∈ s.x, r.wf s.params) ∧ s.pendingOk

/-- n steps, stopping at the first fault or refusal. -/
def run : Nat → State → Result
  | 0, s => .next s
  | n + 1, s =>
    match step s with
    | .next t => run n t
    | .fault f => .fault f
    | .refused r => .refused r

/-- The next step completes the command in flight: it is the core's turn, or the host has nothing more to do (R42, R63;
log 3). -/
def State.completes (s : State) : Prop := s.pending ≠ none ∧ (s.inputs = [] ∨ s.inputs.head? = some .core)

/-- The next step is a host read of register r of the window. -/
def State.reads (s : State) (r : WinReg) : Prop :=
  ∃ addr size rest, s.inputs = .host (.read addr size) :: rest ∧ s.inWindow addr = true ∧ s.winReg addr = r

/-- The next step is a host write of w to register r of the window. -/
def State.writes (s : State) (r : WinReg) (w : Word) : Prop :=
  ∃ addr size rest, s.inputs = .host (.write addr size w) :: rest ∧ s.inWindow addr = true ∧ s.winReg addr = r

/-- The next step is a soft reset (R33, R221) or a power-on reset (R220). -/
def State.resets (s : State) : Prop :=
  (∃ w, s.writes .ctrl w ∧ w.getLsbD 0 = true) ∨ s.inputs.head? = some .resetPin

/-- An access the BIC answers and that is no soft reset. -/
def Access.ordinary (s : State) : Access → Prop
  | .read addr _ => s.inWindow addr = true
  | .write addr _ w => s.inWindow addr = true ∧ ¬(s.winReg addr = .ctrl ∧ w.getLsbD 0 = true)

namespace Safety

/-- The next input, if it is a host access the BIC answers. -/
def nextAccess (s : State) : Option Access :=
  match s.inputs with
  | .host (.read addr size) :: _ => if s.inWindow addr then some (.read addr size) else none
  | .host (.write addr size w) :: _ => if s.inWindow addr then some (.write addr size w) else none
  | _ => none

/-- The access is an aligned 32-bit access (R52). -/
def wordAccess : Access → Bool
  | .read addr size => size = .word && addr % 4 == 0
  | .write addr size _ => size = .word && addr % 4 == 0

/-- The first source register of word w's command whose value is not defined: what its acceptance would sample (R24, R41). -/
def undefinedSource (s : State) (w : Word) : Option RegIdx :=
  match decode s.params.nreg w with
  | .illegal _ => none
  | .legal i => (sources i).find? (fun r => !(s.reg r).isDefined)

/-- The register of which the access would use an undefined value (R24): a DATA read of an undefined word, an NBITS read of a
register with any undefined word, the acceptance of a command with an undefined source. -/
def undefinedUse (s : State) (a : Access) : Option RegIdx :=
  if s.busy then none
  else
    match a with
    | .read addr _ =>
      match s.winReg addr with
      | .data => if s.selectsWord && (s.reg s.rsel).undef.contains s.widx.toNat then some s.rsel else none
      | .nbits => if s.rsel.toNat < s.params.nreg && !(s.reg s.rsel).isDefined then some s.rsel else none
      | _ => none
    | .write addr _ w =>
      match s.winReg addr with
      | .cmd => undefinedSource s w
      | _ => none

/-- The strict machine: `step`, but for the two stops that 93_implementation_defined.md asks of a model (U1, U6). -/
def strictStep (s : State) : Result :=
  match nextAccess s with
  | none => step s
  | some a =>
    if wordAccess a = false then
      match a with
      | .read addr _ => .refused (.notWordAccess addr)
      | .write addr _ _ => .refused (.notWordAccess addr)
    else
      match undefinedUse s a with
      | some r => .fault (.undefinedUse r)
      | none => step s

/-- The two registers agree wherever they are defined: the same words are undefined, and every other word is the same. -/
abbrev sameRegDefined (p : Params) (r t : OpReg) : Prop :=
  r.undef = t.undef ∧ ∀ k < p.capWords, k ∉ r.undef → wordOf r.value k = wordOf t.value k

/-- The two states agree in everything but the contents of undefined words. -/
abbrev sameDefined (s t : State) : Prop :=
  { s with x := t.x } = t ∧ s.x.length = t.x.length ∧
    ∀ i : RegIdx, i.toNat < s.params.nreg → sameRegDefined s.params (s.reg i) (t.reg i)

end Safety

end Sys2Proof.Machine
end

