-- ==== Sys2Proof/Certificates/Slice0/Obligations.lean ====
section
/-! DEFINITION. What is stated of the model, for the provers. Each docstring names the rule of spec/ it formalises. -/

namespace Sys2Proof.Claims

open Sys2Proof.Machine

/-- The completion step of R42, written out: the writes (destination register, value) one after the other, STATUS.CMP, the
error code, DONE (and ERROR if the code is not 0), BUSY cleared, and nothing else changed. -/
def completed (s : State) (writes : List (RegIdx × Nat)) (c : Cmp) (e : ErrCode) : State :=
  { s with
    x := writes.foldl (fun x w => x.set w.1.toNat { value := w.2, undef := [] }) s.x
    cmp := c
    errcode := e
    irqStatus := s.irqStatus ||| (if e = .none then 0b0001#4 else 0b0011#4)
    pending := none }

/-- Command i is in flight with the sampled operands `ops`, in the order a, b, m (R41). -/
def Running (s : State) (i : Instr) (ops : List Nat) : Prop :=
  s.pending = some { work := .command i, operands := ops }

/-- The state `s` with command i in flight on the operands `ops`. -/
def launched (s : State) (i : Instr) (ops : List Nat) : State :=
  { s with pending := some { work := .command i, operands := ops } }

/-- A CMD write of command i's word by an Idle core puts i in flight, with the values of the registers `srcs` as its operands
(R40, R41); and the word has the match value of its row of R81 under the row's mask. -/
def Issues (i : Instr) (srcs : List RegIdx) (mtch mask : Word) : Prop :=
  encode i &&& mask = mtch ∧
  ∀ (s : State) (rest : List Input), i.wf s.params.nreg = true → s.pending = none →
    s.inputs = hostIssue s.params i :: rest → ∃ t, step s = .next t ∧ Running t i (srcs.map s.val)

/-- The order of the natural numbers as STATUS.CMP reports it (R110). -/
def order (a b : Nat) : Cmp := if a = b then .eq else if a < b then .lt else .gt

/-- Name, match and mask of the 19 commands, as the table of R81 lists them. -/
def matchMask : List (String × Word × Word) :=
  [("ADD", 0x08000000#32, 0xff000fff#32), ("ADDT", 0x09000000#32, 0xff000fff#32),
   ("SUB", 0x10000000#32, 0xff000fff#32), ("SHL", 0x18000000#32, 0xff000000#32),
   ("SHR", 0x20000000#32, 0xff000000#32), ("AND", 0x28000000#32, 0xff000fff#32),
   ("CMP", 0x30000000#32, 0xfff00fff#32), ("MOV", 0x38000000#32, 0xff00ffff#32),
   ("LDI", 0x40000000#32, 0xff0f0000#32), ("MUL", 0x48000000#32, 0xff000fff#32)] ++
  [("MULK", 0x49000000#32, 0xff000fff#32), ("MULT", 0x4a000000#32, 0xff000fff#32),
   ("DIV", 0x50000000#32, 0xff0000ff#32), ("MOD", 0x58000000#32, 0xff000fff#32),
   ("MODADD", 0x60000000#32, 0xff0000ff#32), ("MODMUL", 0x68000000#32, 0xff0000ff#32),
   ("MODMULK", 0x69000000#32, 0xff0000ff#32), ("MODMULT", 0x6a000000#32, 0xff0000ff#32),
   ("MODEXP", 0x70000000#32, 0xff0000ff#32)]

/-- A row of the field-use table of R78: OP, FN, the lowest bits of the used register fields, and the fields (lowest bit,
length) that must be zero. -/
structure FieldUse where
  op : Nat
  fn : Nat
  used : List Nat
  zero : List (Nat × Nat)

/-- The table of R78 with the opcodes of R81. RD, RS1, RS2, RS3 stand at bits 20, 16, 12, 8, and Z is bits [7:0]. -/
def fieldUse : List FieldUse :=
  [⟨0x01, 0, [20, 16, 12], [(8, 4), (0, 8)]⟩, ⟨0x01, 1, [20, 16, 12], [(8, 4), (0, 8)]⟩,
   ⟨0x02, 0, [20, 16, 12], [(8, 4), (0, 8)]⟩, ⟨0x03, 0, [20, 16], []⟩, ⟨0x04, 0, [20, 16], []⟩,
   ⟨0x05, 0, [20, 16, 12], [(8, 4), (0, 8)]⟩, ⟨0x06, 0, [16, 12], [(20, 4), (8, 4), (0, 8)]⟩,
   ⟨0x07, 0, [20, 16], [(12, 4), (8, 4), (0, 8)]⟩, ⟨0x08, 0, [20], [(16, 4)]⟩,
   ⟨0x09, 0, [20, 16, 12], [(8, 4), (0, 8)]⟩] ++
  [⟨0x09, 1, [20, 16, 12], [(8, 4), (0, 8)]⟩, ⟨0x09, 2, [20, 16, 12], [(8, 4), (0, 8)]⟩,
   ⟨0x0A, 0, [20, 16, 12, 8], [(0, 8)]⟩, ⟨0x0B, 0, [20, 16, 12], [(8, 4), (0, 8)]⟩,
   ⟨0x0C, 0, [20, 16, 12, 8], [(0, 8)]⟩, ⟨0x0D, 0, [20, 16, 12, 8], [(0, 8)]⟩,
   ⟨0x0D, 1, [20, 16, 12, 8], [(0, 8)]⟩, ⟨0x0D, 2, [20, 16, 12, 8], [(0, 8)]⟩,
   ⟨0x0E, 0, [20, 16, 12, 8], [(0, 8)]⟩]

/-- Bits [lo+len-1 : lo] of a word (R11). -/
def bits (w : Word) (lo len : Nat) : Nat := w.toNat / 2 ^ lo % 2 ^ len

/-- The error codes a command can complete with, besides ILLEGAL (the table of R194). -/
def possibleCodes : Instr → List ErrCode
  | .add .. | .shl .. | .mul .. | .mulk .. | .mult .. => [.none, .overflow]
  | .sub .. => [.none, .underflow]
  | .addt .. | .shr .. | .and .. | .cmp .. | .mov .. | .ldi .. => [.none]
  | .div .. | .mod .. | .modadd .. | .modmul .. | .modmulk .. | .modmult .. | .modexp .. => [.none, .divzero]

/-- The next step uses an undefined word of operand register r, in one of the three ways R24 lists: a DATA read of an
undefined word, an NBITS read of a register with any undefined word, the acceptance of a command with r among its sources. -/
def usesUndefined (s : State) (r : RegIdx) : Prop :=
  s.pending = none ∧
    ((s.reads .data ∧ r = s.rsel ∧ r.toNat < s.params.nreg ∧ s.widx.toNat < s.params.capWords ∧
        s.widx.toNat ∈ (s.reg r).undef) ∨
      (s.reads .nbits ∧ r = s.rsel ∧ r.toNat < s.params.nreg ∧ (s.reg r).undef ≠ []) ∨
      ∃ w i, s.writes .cmd w ∧ decode s.params.nreg w = .legal i ∧ r ∈ sources i ∧ (s.reg r).undef ≠ [])

/-- The next input, if it is a host access, is an aligned 32-bit one (R52). -/
def nextIsAligned (s : State) : Prop :=
  ∀ (addr : Nat) (size : Size) (rest : List Input),
    (s.inputs = .host (.read addr size) :: rest ∨ ∃ w, s.inputs = .host (.write addr size w) :: rest) →
    size = .word ∧ addr % 4 = 0

/-- What keeps event flag k from staying set: a write of 1 to its bit of IRQ_STATUS, or a reset (R198). -/
def clearsFlag (s : State) (k : Nat) : Prop :=
  (∃ w, s.writes .irqStatus w ∧ w.getLsbD k = true) ∨ s.resets

end Sys2Proof.Claims

section

open Sys2Proof Sys2Proof.Machine Sys2Proof.Claims

/-! ## The commands: encoding, result, status, errors -/

/-- R102 -/
def Obligations.AddWritesSumOrOverflows : Prop :=
  ∀ rd rs1 rs2 : RegIdx,
    encode (.add rd rs1 rs2) = 0x01#5 ++ 0b000#3 ++ rd ++ rs1 ++ rs2 ++ 0#4 ++ 0#8 ∧
    Issues (.add rd rs1 rs2) [rs1, rs2] 0x08000000#32 0xff000fff#32 ∧
    ∀ (s : State) (a b : Nat), Running s (.add rd rs1 rs2) [a, b] →
      exec (.add rd rs1 rs2) s = .next (if a + b < 2 ^ s.params.capBits then completed s [(rd, a + b)] s.cmp .none
        else completed s [] s.cmp .overflow)

/-- R103 -/
def Obligations.AddtTruncatesToCallersLength : Prop :=
  ∀ rd rs1 rs2 : RegIdx,
    encode (.addt rd rs1 rs2) = 0x01#5 ++ 0b001#3 ++ rd ++ rs1 ++ rs2 ++ 0#4 ++ 0#8 ∧
    Issues (.addt rd rs1 rs2) [rs1, rs2] 0x09000000#32 0xff000fff#32 ∧
    ∀ (s : State) (a b : Nat), Running s (.addt rd rs1 rs2) [a, b] →
      exec (.addt rd rs1 rs2) s = .next (completed s [(rd, (a + b) % 2 ^ nbits a)] s.cmp .none)

/-- R105 -/
def Obligations.SubWritesDifferenceOrUnderflows : Prop :=
  ∀ rd rs1 rs2 : RegIdx,
    encode (.sub rd rs1 rs2) = 0x02#5 ++ 0b000#3 ++ rd ++ rs1 ++ rs2 ++ 0#4 ++ 0#8 ∧
    Issues (.sub rd rs1 rs2) [rs1, rs2] 0x10000000#32 0xff000fff#32 ∧
    ∀ (s : State) (a b : Nat), Running s (.sub rd rs1 rs2) [a, b] →
      exec (.sub rd rs1 rs2) s = .next (if a < b then completed s [] s.cmp .underflow
        else completed s [(rd, a - b)] s.cmp .none)

/-- R106; the second clause is its "Errors" line. -/
def Obligations.ShlWritesShiftedOrOverflows : Prop :=
  ∀ (rd rs1 : RegIdx) (imm : Imm16),
    encode (.shl rd rs1 imm) = 0x03#5 ++ 0b000#3 ++ rd ++ rs1 ++ imm ∧
    Issues (.shl rd rs1 imm) [rs1] 0x18000000#32 0xff000000#32 ∧
    ∀ (s : State) (a : Nat), Running s (.shl rd rs1 imm) [a] →
      exec (.shl rd rs1 imm) s = .next (if a * 2 ^ imm.toNat < 2 ^ s.params.capBits
        then completed s [(rd, a * 2 ^ imm.toNat)] s.cmp .none
        else completed s [] s.cmp .overflow) ∧
      (2 ^ s.params.capBits ≤ a * 2 ^ imm.toNat ↔ a ≠ 0 ∧ s.params.capBits < nbits a + imm.toNat)

/-- R107 -/
def Obligations.ShrDropsLowBits : Prop :=
  ∀ (rd rs1 : RegIdx) (imm : Imm16),
    encode (.shr rd rs1 imm) = 0x04#5 ++ 0b000#3 ++ rd ++ rs1 ++ imm ∧
    Issues (.shr rd rs1 imm) [rs1] 0x20000000#32 0xff000000#32 ∧
    ∀ (s : State) (a : Nat), Running s (.shr rd rs1 imm) [a] →
      exec (.shr rd rs1 imm) s = .next (completed s [(rd, a / 2 ^ imm.toNat)] s.cmp .none)

/-- R108: bit i of the result is a[i] and b[i]. -/
def Obligations.AndIsBitwise : Prop :=
  ∀ rd rs1 rs2 : RegIdx,
    encode (.and rd rs1 rs2) = 0x05#5 ++ 0b000#3 ++ rd ++ rs1 ++ rs2 ++ 0#4 ++ 0#8 ∧
    Issues (.and rd rs1 rs2) [rs1, rs2] 0x28000000#32 0xff000fff#32 ∧
    ∀ (s : State) (a b : Nat), Running s (.and rd rs1 rs2) [a, b] →
      ∃ v, exec (.and rd rs1 rs2) s = .next (completed s [(rd, v)] s.cmp .none) ∧
        ∀ k, v.testBit k = (a.testBit k && b.testBit k)

/-- R110 -/
def Obligations.CmpReportsOrder : Prop :=
  ∀ rs1 rs2 : RegIdx,
    encode (.cmp rs1 rs2) = 0x06#5 ++ 0b000#3 ++ 0#4 ++ rs1 ++ rs2 ++ 0#4 ++ 0#8 ∧
    Issues (.cmp rs1 rs2) [rs1, rs2] 0x30000000#32 0xfff00fff#32 ∧
    ∀ (s : State) (a b : Nat), Running s (.cmp rs1 rs2) [a, b] →
      exec (.cmp rs1 rs2) s = .next (completed s [] (order a b) .none)

/-- R111 -/
def Obligations.MovCopies : Prop :=
  ∀ rd rs1 : RegIdx,
    encode (.mov rd rs1) = 0x07#5 ++ 0b000#3 ++ rd ++ rs1 ++ 0#4 ++ 0#4 ++ 0#8 ∧
    Issues (.mov rd rs1) [rs1] 0x38000000#32 0xff00ffff#32 ∧
    ∀ (s : State) (a : Nat), Running s (.mov rd rs1) [a] →
      exec (.mov rd rs1) s = .next (completed s [(rd, a)] s.cmp .none)

/-- R112 -/
def Obligations.LdiLoadsConstant : Prop :=
  ∀ (rd : RegIdx) (imm : Imm16),
    encode (.ldi rd imm) = 0x08#5 ++ 0b000#3 ++ rd ++ 0#4 ++ imm ∧
    Issues (.ldi rd imm) [] 0x40000000#32 0xff0f0000#32 ∧
    ∀ s : State, Running s (.ldi rd imm) [] →
      exec (.ldi rd imm) s = .next (completed s [(rd, imm.toNat)] s.cmp .none)

/-- R135 -/
def Obligations.MulWritesProductOrOverflows : Prop :=
  ∀ rd rs1 rs2 : RegIdx,
    encode (.mul rd rs1 rs2) = 0x09#5 ++ 0b000#3 ++ rd ++ rs1 ++ rs2 ++ 0#4 ++ 0#8 ∧
    Issues (.mul rd rs1 rs2) [rs1, rs2] 0x48000000#32 0xff000fff#32 ∧
    ∀ (s : State) (a b : Nat), Running s (.mul rd rs1 rs2) [a, b] →
      exec (.mul rd rs1 rs2) s = .next (if a * b < 2 ^ s.params.capBits then completed s [(rd, a * b)] s.cmp .none
        else completed s [] s.cmp .overflow)

/-- R136 -/
def Obligations.MulkWritesProductOrOverflows : Prop :=
  ∀ rd rs1 rs2 : RegIdx,
    encode (.mulk rd rs1 rs2) = 0x09#5 ++ 0b001#3 ++ rd ++ rs1 ++ rs2 ++ 0#4 ++ 0#8 ∧
    Issues (.mulk rd rs1 rs2) [rs1, rs2] 0x49000000#32 0xff000fff#32 ∧
    ∀ (s : State) (a b : Nat), Running s (.mulk rd rs1 rs2) [a, b] →
      exec (.mulk rd rs1 rs2) s = .next (if a * b < 2 ^ s.params.capBits then completed s [(rd, a * b)] s.cmp .none
        else completed s [] s.cmp .overflow)

/-- R137 -/
def Obligations.MultWritesProductOrOverflows : Prop :=
  ∀ rd rs1 rs2 : RegIdx,
    encode (.mult rd rs1 rs2) = 0x09#5 ++ 0b010#3 ++ rd ++ rs1 ++ rs2 ++ 0#4 ++ 0#8 ∧
    Issues (.mult rd rs1 rs2) [rs1, rs2] 0x4a000000#32 0xff000fff#32 ∧
    ∀ (s : State) (a b : Nat), Running s (.mult rd rs1 rs2) [a, b] →
      exec (.mult rd rs1 rs2) s = .next (if a * b < 2 ^ s.params.capBits then completed s [(rd, a * b)] s.cmp .none
        else completed s [] s.cmp .overflow)

/-- R151: quotient and remainder in one completion step; the divisor is checked first, for every dividend. -/
def Obligations.DivWritesQuotientAndRemainder : Prop :=
  ∀ rd rs1 rs2 rs3 : RegIdx,
    encode (.div rd rs1 rs2 rs3) = 0x0A#5 ++ 0b000#3 ++ rd ++ rs1 ++ rs2 ++ rs3 ++ 0#8 ∧
    Issues (.div rd rs1 rs2 rs3) [rs1, rs2] 0x50000000#32 0xff0000ff#32 ∧
    ∀ (s : State) (a b : Nat), Running s (.div rd rs1 rs2 rs3) [a, b] →
      exec (.div rd rs1 rs2 rs3) s = .next (if b = 0 then completed s [] s.cmp .divzero
        else completed s [(rd, a / b), (rs3, a % b)] s.cmp .none)

/-- R152 -/
def Obligations.ModWritesRemainder : Prop :=
  ∀ rd rs1 rs2 : RegIdx,
    encode (.mod rd rs1 rs2) = 0x0B#5 ++ 0b000#3 ++ rd ++ rs1 ++ rs2 ++ 0#4 ++ 0#8 ∧
    Issues (.mod rd rs1 rs2) [rs1, rs2] 0x58000000#32 0xff000fff#32 ∧
    ∀ (s : State) (a b : Nat), Running s (.mod rd rs1 rs2) [a, b] →
      exec (.mod rd rs1 rs2) s = .next (if b = 0 then completed s [] s.cmp .divzero
        else completed s [(rd, a % b)] s.cmp .none)

/-- R166 -/
def Obligations.ModaddWritesResidueOfSum : Prop :=
  ∀ rd rs1 rs2 rs3 : RegIdx,
    encode (.modadd rd rs1 rs2 rs3) = 0x0C#5 ++ 0b000#3 ++ rd ++ rs1 ++ rs2 ++ rs3 ++ 0#8 ∧
    Issues (.modadd rd rs1 rs2 rs3) [rs1, rs2, rs3] 0x60000000#32 0xff0000ff#32 ∧
    ∀ (s : State) (a b m : Nat), Running s (.modadd rd rs1 rs2 rs3) [a, b, m] →
      exec (.modadd rd rs1 rs2 rs3) s = .next (if m = 0 then completed s [] s.cmp .divzero
        else completed s [(rd, (a + b) % m)] s.cmp .none)

/-- R167 -/
def Obligations.ModmulWritesResidueOfProduct : Prop :=
  ∀ rd rs1 rs2 rs3 : RegIdx,
    encode (.modmul rd rs1 rs2 rs3) = 0x0D#5 ++ 0b000#3 ++ rd ++ rs1 ++ rs2 ++ rs3 ++ 0#8 ∧
    Issues (.modmul rd rs1 rs2 rs3) [rs1, rs2, rs3] 0x68000000#32 0xff0000ff#32 ∧
    ∀ (s : State) (a b m : Nat), Running s (.modmul rd rs1 rs2 rs3) [a, b, m] →
      exec (.modmul rd rs1 rs2 rs3) s = .next (if m = 0 then completed s [] s.cmp .divzero
        else completed s [(rd, (a * b) % m)] s.cmp .none)

/-- R168 -/
def Obligations.ModmulkWritesResidueOfProduct : Prop :=
  ∀ rd rs1 rs2 rs3 : RegIdx,
    encode (.modmulk rd rs1 rs2 rs3) = 0x0D#5 ++ 0b001#3 ++ rd ++ rs1 ++ rs2 ++ rs3 ++ 0#8 ∧
    Issues (.modmulk rd rs1 rs2 rs3) [rs1, rs2, rs3] 0x69000000#32 0xff0000ff#32 ∧
    ∀ (s : State) (a b m : Nat), Running s (.modmulk rd rs1 rs2 rs3) [a, b, m] →
      exec (.modmulk rd rs1 rs2 rs3) s = .next (if m = 0 then completed s [] s.cmp .divzero
        else completed s [(rd, (a * b) % m)] s.cmp .none)

/-- R169 -/
def Obligations.ModmultWritesResidueOfProduct : Prop :=
  ∀ rd rs1 rs2 rs3 : RegIdx,
    encode (.modmult rd rs1 rs2 rs3) = 0x0D#5 ++ 0b010#3 ++ rd ++ rs1 ++ rs2 ++ rs3 ++ 0#8 ∧
    Issues (.modmult rd rs1 rs2 rs3) [rs1, rs2, rs3] 0x6a000000#32 0xff0000ff#32 ∧
    ∀ (s : State) (a b m : Nat), Running s (.modmult rd rs1 rs2 rs3) [a, b, m] →
      exec (.modmult rd rs1 rs2 rs3) s = .next (if m = 0 then completed s [] s.cmp .divzero
        else completed s [(rd, (a * b) % m)] s.cmp .none)

/-- R171: exponent 0 gives 1 for every m ≥ 1, m = 1 included; m = 0 is DIVZERO for every exponent. -/
def Obligations.ModexpWritesPower : Prop :=
  ∀ rd rs1 rs2 rs3 : RegIdx,
    encode (.modexp rd rs1 rs2 rs3) = 0x0E#5 ++ 0b000#3 ++ rd ++ rs1 ++ rs2 ++ rs3 ++ 0#8 ∧
    Issues (.modexp rd rs1 rs2 rs3) [rs1, rs2, rs3] 0x70000000#32 0xff0000ff#32 ∧
    ∀ (s : State) (a b m : Nat), Running s (.modexp rd rs1 rs2 rs3) [a, b, m] →
      exec (.modexp rd rs1 rs2 rs3) s = .next (if m = 0 then completed s [] s.cmp .divzero
        else completed s [(rd, if b = 0 then 1 else a ^ b % m)] s.cmp .none)

/-! ## The arithmetic units -/

/-- R130: the three algorithms give the product on every input, the three multiply commands complete alike, and OVERFLOW is
the only error they raise. -/
def Obligations.ThreeMultipliersAgree : Prop :=
  (∀ a b : Nat, school a b = a * b ∧ kara a b = a * b ∧ trans a b = a * b) ∧
  ∀ (s : State) (rd rs1 rs2 : RegIdx) (a b : Nat),
    exec (.mulk rd rs1 rs2) (launched s (.mulk rd rs1 rs2) [a, b])
      = exec (.mul rd rs1 rs2) (launched s (.mul rd rs1 rs2) [a, b]) ∧
    exec (.mult rd rs1 rs2) (launched s (.mult rd rs1 rs2) [a, b])
      = exec (.mul rd rs1 rs2) (launched s (.mul rd rs1 rs2) [a, b]) ∧
    ∃ t, exec (.mul rd rs1 rs2) (launched s (.mul rd rs1 rs2) [a, b]) = .next t ∧
      (t.errcode = .none ∨ t.errcode = .overflow)

/-- R100: the sum bits and the carries of the w = max(nbits) cells, the carry out on top; the full result is a + b, and the
carry out extends the length by one. -/
def Obligations.RippleAdderAdds : Prop :=
  ∀ a b w : Nat, w = max (nbits a) (nbits b) → ∃ c : Nat → Bool, c 0 = false ∧
    (∀ i < w, c (i + 1) = ((a.testBit i && b.testBit i) || (a.testBit i && c i) || (b.testBit i && c i))) ∧
    (∀ i < w, (rippleAdd a b).testBit i = ((a.testBit i ^^ b.testBit i) ^^ c i)) ∧
    (∀ i, w ≤ i → (rippleAdd a b).testBit i = (c i && decide (i = w))) ∧
    rippleAdd a b = a + b ∧ (c w = true → nbits (a + b) = w + 1) ∧ (c w = false → nbits (a + b) ≤ w)

/-- R104: the two's-complement steps at the minuend's width give the difference. -/
def Obligations.ComplementSubtractorSubtracts : Prop :=
  ∀ a b : Nat, b ≤ a →
    complementSub a b = (((2 ^ nbits a - 1 - b) + 1) % 2 ^ nbits a + a) % 2 ^ nbits a ∧ complementSub a b = a - b

/-- R109: bit length first, then the highest differing bit; and that is the order of the natural numbers. -/
def Obligations.ComparatorIsOrder : Prop :=
  ∀ a b : Nat, (nbits a < nbits b → magCompare a b = .lt) ∧ (nbits b < nbits a → magCompare a b = .gt) ∧
    (∀ k, nbits a = nbits b → a.testBit k ≠ b.testBit k → (∀ j, k < j → a.testBit j = b.testBit j) →
      magCompare a b = if a.testBit k then .gt else .lt) ∧
    magCompare a b = order a b

/-- R150: the recursion, one level for each bit of the dividend, and what it computes. -/
def Obligations.LongDivisionDivides : Prop :=
  ∀ a b : Nat, 0 < b →
    quadDiv 0 b = (0, 0) ∧
    (∀ q r : Nat, a ≠ 0 → quadDiv (a / 2) b = (q, r) → quadDiv a b =
      if b ≤ 2 * r + a % 2 then (2 * q + 1, 2 * r + a % 2 - b) else (2 * q, 2 * r + a % 2)) ∧
    quadDiv a b = (a / b, a % b) ∧ (quadDiv a b).1 * b + (quadDiv a b).2 = a ∧ (quadDiv a b).2 < b

/-- R170: the recursion, one level for each bit of the exponent, and what it computes. -/
def Obligations.SquareAndMultiplyIsPower : Prop :=
  ∀ a e m : Nat, 0 < m →
    modExp a 0 m = 1 ∧
    (e ≠ 0 → modExp a e m =
      if e % 2 = 1 then modExp a (e / 2) m * modExp a (e / 2) m % m * a % m
      else modExp a (e / 2) m * modExp a (e / 2) m % m) ∧
    modExp a e m = if e = 0 then 1 else a ^ e % m

/-- R12 -/
def Obligations.NbitsIsLeastBound : Prop :=
  nbits 0 = 0 ∧ ∀ v : Nat, v < 2 ^ nbits v ∧ (∀ n, v < 2 ^ n → nbits v ≤ n) ∧
    (v ≠ 0 → v.testBit (nbits v - 1) = true ∧ ∀ k, nbits v ≤ k → v.testBit k = false)

/-- R54: bit j of word k is bit 32k+j, and the value is the sum of its words. -/
def Obligations.RegisterIsSumOfItsWords : Prop :=
  (∀ v k j : Nat, j < 32 → (wordOf v k).getLsbD j = v.testBit (32 * k + j)) ∧
  ∀ v n : Nat, v < 2 ^ (32 * n) → v = ((List.range n).map (fun k => (wordOf v k).toNat * 2 ^ (32 * k))).sum

/-! ## Encoding -/

/-- R76 to R80, R88: decoding an encoded well-formed command gives it back, for every instance. -/
def Obligations.DecodeOfEncodeIsIdentity : Prop :=
  ∀ (nreg : Nat) (i : Instr), i.wf nreg = true → decode nreg (encode i) = .legal i

/-- R78 to R82, R88: a word that decodes is the encoding of its command, and the command is well-formed: no bit of a legal
word is dropped. -/
def Obligations.EncodeOfDecodeIsIdentity : Prop :=
  ∀ (nreg : Nat) (w : Word) (i : Instr), decode nreg w = .legal i → encode i = w ∧ i.wf nreg = true

/-- R81: at most one row matches a word; the words that match a row are those that spell a command, up to the register
checks of R80; and a word that decodes matches the row of its command. -/
def Obligations.OneRowMatchesEachWord : Prop :=
  (∀ w : Word, ∀ r ∈ matchMask, ∀ q ∈ matchMask, w &&& r.2.2 = r.2.1 → w &&& q.2.2 = q.2.1 → r = q) ∧
  (∀ (nreg : Nat) (w : Word), (∃ r ∈ matchMask, w &&& r.2.2 = r.2.1) ↔
    ((∃ i, decode nreg w = .legal i) ∨ decode nreg w = .illegal .registerIndex ∨
      decode nreg w = .illegal .sameDestinations)) ∧
  ∀ (nreg : Nat) (w : Word) (i : Instr), decode nreg w = .legal i →
    ∃ r ∈ matchMask, r.1 = mnemonic i ∧ w &&& r.2.2 = r.2.1

/-- R82: a word is ILLEGAL exactly in the cases (a) to (e), the all-zero and the all-ones word among them, and then it
completes with code 1. -/
def Obligations.IllegalWordsAreExactlyThose : Prop :=
  (∀ (nreg : Nat) (w : Word), (∃ why, decode nreg w = .illegal why) ↔
    bits w 27 5 = 0 ∨ 0x0F ≤ bits w 27 5 ∨
    (¬ ∃ u ∈ fieldUse, u.op = bits w 27 5 ∧ u.fn = bits w 24 3) ∨
    (∃ u ∈ fieldUse, u.op = bits w 27 5 ∧ u.fn = bits w 24 3 ∧
      ((∃ f ∈ u.zero, bits w f.1 f.2 ≠ 0) ∨ (∃ lo ∈ u.used, nreg ≤ bits w lo 4) ∨
        (u.op = 0x0A ∧ bits w 20 4 = bits w 8 4)))) ∧
  (∀ nreg, (∃ why, decode nreg 0x00000000#32 = .illegal why) ∧ ∃ why, decode nreg 0xffffffff#32 = .illegal why) ∧
  ∀ (s : State) (w : Word) (rest : List Input) (why : Reject), decode s.params.nreg w = .illegal why → s.pending = none →
    s.inputs = hostWrite s.params .cmd w :: .core :: rest →
    ∃ t u, step s = .next t ∧ step t = .next u ∧ u.errcode = .illegal

/-- For each of the 19 commands the word of its rule's example (R102, R103, R105 to R108, R110 to R112, R135 to R137, R151,
R152, R166 to R169, R171; DIV in R85's operand order), and three ILLEGAL words of R82 and R80. -/
def Obligations.ExampleWordsDecode : Prop :=
  (decode 16 0x08312000#32 = .legal (.add 3 1 2) ∧ decode 16 0x09312000#32 = .legal (.addt 3 1 2) ∧
    decode 16 0x10312000#32 = .legal (.sub 3 1 2) ∧ decode 16 0x18210004#32 = .legal (.shl 2 1 4) ∧
    decode 16 0x20210004#32 = .legal (.shr 2 1 4) ∧ decode 16 0x28312000#32 = .legal (.and 3 1 2) ∧
    decode 16 0x30012000#32 = .legal (.cmp 1 2) ∧ decode 16 0x38210000#32 = .legal (.mov 2 1) ∧
    decode 16 0x4010001b#32 = .legal (.ldi 1 0x1b)) ∧
  (decode 16 0x48312000#32 = .legal (.mul 3 1 2) ∧ decode 16 0x49312000#32 = .legal (.mulk 3 1 2) ∧
    decode 16 0x4a312000#32 = .legal (.mult 3 1 2) ∧ decode 16 0x50312400#32 = .legal (.div 3 1 2 4) ∧
    decode 16 0x58312000#32 = .legal (.mod 3 1 2)) ∧
  (decode 16 0x60412300#32 = .legal (.modadd 4 1 2 3) ∧ decode 16 0x68412300#32 = .legal (.modmul 4 1 2 3) ∧
    decode 16 0x69412300#32 = .legal (.modmulk 4 1 2 3) ∧ decode 16 0x6a412300#32 = .legal (.modmult 4 1 2 3) ∧
    decode 16 0x70412300#32 = .legal (.modexp 4 1 2 3)) ∧
  decode 16 0x00000000#32 = .illegal .reservedOpcode ∧ decode 16 0x50312300#32 = .illegal .sameDestinations ∧
  decode 4 0x08412000#32 = .illegal .registerIndex

/-- R53: lane k carries register bits [8k+7:8k], and the four lanes make the word again. -/
def Obligations.LanesAreLittleEndian : Prop :=
  ∀ w : Word, (∀ k < 4, ∀ j < 8, (lane w k).getLsbD j = w.getLsbD (8 * k + j)) ∧
    wordOfLanes (lane w 0) (lane w 1) (lane w 2) (lane w 3) = w ∧
    ∀ nreg, decodeLanes nreg [lane w 0, lane w 1, lane w 2, lane w 3] = decode nreg w

/-! ## The step -/

/-- The command in flight is the one a step runs. With `withFetchWord` (log 4), with a core turn next, and with no input left
(log 3); an Idle core does no work (R209). -/
def Obligations.StepRunsPendingCommand : Prop :=
  (∀ (s : State) (nb w : Nat) (i : Instr), decode s.params.nreg (BitVec.ofNat 32 (w % 2 ^ nb)) = .legal i →
    step (s.withFetchWord nb w) = exec i (s.accept (BitVec.ofNat 32 (w % 2 ^ nb)))) ∧
  (∀ (s : State) (i : Instr) (ops : List Nat) (rest : List Input), Running s i ops → s.inputs = .core :: rest →
    step s = exec i { s with inputs := rest }) ∧
  (∀ (s : State) (i : Instr) (ops : List Nat), Running s i ops → s.inputs = [] → step s = exec i s) ∧
  (∀ (s : State) (rest : List Input), s.pending = none → s.inputs = .core :: rest →
    step s = .next { s with inputs := rest })

/-- R191: an ILLEGAL command completes with code 1 and writes nothing else; no operand was sampled for it. -/
def Obligations.IllegalCompletesWithCodeOne : Prop :=
  (∀ (s : State) (w : Word) (rest : List Input) (why : Reject), s.inputs = hostWrite s.params .cmd w :: rest →
    s.pending = none → decode s.params.nreg w = .illegal why →
    ∃ t, step s = .next t ∧ t.cmd = w ∧ t.pending = some { work := .illegal, operands := [] } ∧ t.x = s.x) ∧
  ∀ (s : State) (ops : List Nat) (rest : List Input), s.pending = some { work := .illegal, operands := ops } →
    s.inputs = .core :: rest → step s = .next { completed s [] s.cmp .illegal with inputs := rest }

/-- R40: acceptance while Idle, OVERRUN while Busy. -/
def Obligations.CmdWriteIsAcceptedOrOverruns : Prop :=
  ∀ (s : State) (w : Word) (rest : List Input), s.inputs = hostWrite s.params .cmd w :: rest →
    (s.pending = none → step s = .next { s with
      inputs := rest
      cmd := w
      errcode := .none
      pending := some (match decode s.params.nreg w with
        | .illegal _ => { work := .illegal, operands := [] }
        | .legal i => { work := .command i, operands := (sources i).map s.val }) }) ∧
    (s.pending ≠ none → step s = .next { s with inputs := rest, irqStatus := s.irqStatus ||| 0b0100#4 })

/-- The invariant holds right after power-on, for every instance of R8. The register contents in that state are the model's
choice (log 1), and so is BASE of the default instance (log 6). -/
def Obligations.PowerOnMeetsInvariant : Prop :=
  State.reset.Inv ∧ ∀ p : Params, p.wf → (State.powerOn p).Inv

/-- From every state that meets the invariant, a step leads to one that does: legal parameters, NREG registers each below
2^CAPBITS, and a command in flight that is CMD's word decoded, with the values its source registers hold (R8, R20, R35, R41).
That a step goes on where an undefined word is used (log 1), with no input left (log 3) and at a narrow access (log 7) is the
model's choice. -/
def Obligations.StepKeepsInvariant : Prop :=
  ∀ s t : State, s.Inv → step s = .next t → t.Inv

/-- R41: sampling at acceptance and reading at completion give the same values. -/
def Obligations.SampledOperandsAreRegisterValues : Prop :=
  ∀ (s : State) (i : Instr) (ops : List Nat), s.Inv → Running s i ops →
    ops = (sources i).map s.val ∧ i.wf s.params.nreg = true ∧ encode i = s.cmd

/-- The latency is free (R230): whatever accesses the host makes while a command runs (no soft reset among them), its
registers, flags and sampled operands stay, and its completion writes what it would have written at once. The model's own:
that the accesses stand in the state as a list (log 2), that narrow ones are performed (log 7), and that a command in flight
without its operands completes too (log 10). -/
def Obligations.LatencyDoesNotChangeTheResult : Prop :=
  ∀ (s : State) (as : List Access) (rest : List Input), s.pending ≠ none → (∀ a ∈ as, a.ordinary s) →
    ∃ t u v, run as.length { s with inputs := as.map .host ++ .core :: rest } = .next t ∧
      t.pending = s.pending ∧ t.x = s.x ∧ t.cmp = s.cmp ∧ t.errcode = s.errcode ∧ t.cmd = s.cmd ∧
      t.inputs = .core :: rest ∧ step t = .next u ∧ step { s with inputs := .core :: rest } = .next v ∧
      u.x = v.x ∧ u.cmp = v.cmp ∧ u.errcode = v.errcode ∧ u.pending = none

/-- R231: a pending command that no reset abandons completes, within as many steps as inputs are waiting and one more. The
progress that R231 assumes of the core is the model's choice: the core has its turn at the latest when no input is left
(log 3). The model's own too: the list of inputs (log 2), that narrow accesses are performed (log 7), and that a command in
flight without its operands completes (log 10). -/
def Obligations.PendingCommandCompletes : Prop :=
  ∀ s : State, s.pending ≠ none →
    (∀ e ∈ s.inputs, e = .core ∨ ∃ a, e = .host a ∧ a.ordinary s) →
    ∃ k t u, k ≤ s.inputs.length ∧ run k s = .next t ∧ t.pending = s.pending ∧ t.x = s.x ∧ t.completes ∧
      step t = .next u ∧ u.pending = none ∧ u.irqStatus.getLsbD 0 = true

/-- Every command completes: no meaning faults or refuses (R201, R202). That this holds in every state, also in one with no such
command in flight or with fewer operands sampled than it has sources, is the model's choice (log 10). -/
def Obligations.EveryCommandCompletes : Prop :=
  ∀ (i : Instr) (s : State), ∃ t, exec i s = .next t ∧ t.pending = none

/-- A step stops only at a host access outside the window, and it never faults. All of it rests on choices of the model: an
access outside the window is refused (log 8); the step goes on at a use of an undefined word, where R24 and U1 ask a model to
fault (log 1), with no input left (log 3), at an access that is not an aligned 32-bit one, where R52 and U6 ask a model to
refuse (log 7), and with operands that were never sampled (log 10). The stops of U1 and U6 are those of the strict machine. -/
def Obligations.StepStopsOnlyOutsideWindow : Prop :=
  ∀ s : State, (∃ t, step s = .next t ∧ t.params = s.params) ∨
    ∃ a rest addr, s.inputs = .host a :: rest ∧ s.inWindow addr = false ∧ step s = .refused (.outsideWindow addr) ∧
      ((∃ size, a = .read addr size) ∨ ∃ size w, a = .write addr size w)

/-! ## Frames and whole-machine rules -/

/-- R22, R42: what every command leaves unchanged. The BIC has no memory (R44). -/
def Obligations.CommandFrame : Prop :=
  ∀ (i : Instr) (s t : State), exec i s = .next t →
    t.x.length = s.x.length ∧ (∀ j : Nat, (∀ r ∈ dests i, r.toNat ≠ j) → t.x[j]? = s.x[j]?) ∧
    ((∀ rs1 rs2, i ≠ .cmp rs1 rs2) → t.cmp = s.cmp) ∧
    t.params = s.params ∧ t.cmd = s.cmd ∧ t.irqEnable = s.irqEnable ∧ t.rsel = s.rsel ∧ t.widx = s.widx ∧
    t.inputs = s.inputs ∧ t.responses = s.responses ∧
    t.irqStatus = s.irqStatus ||| (if t.errcode = .none then 0b0001#4 else 0b0011#4)

/-- R194, R195: a completion with an error writes the error code, ERR, DONE, ERROR and BUSY and nothing else; and no command
completes with a code that its row of R194 does not have. -/
def Obligations.ErrorsArePreciseAndOfTheCommandsSet : Prop :=
  (∀ s t : State, s.pending ≠ none → coreTurn s = .next t → t.errcode ≠ .none →
    t = { s with errcode := t.errcode, irqStatus := s.irqStatus ||| 0b0011#4, pending := none } ∧
    t.err = true ∧ t.busy = false) ∧
  ∀ (i : Instr) (s t : State), exec i s = .next t → t.errcode ∈ possibleCodes i

/-- R198: each event flag is set after a step exactly if its event happened, or it was set before and nothing cleared it. -/
def Obligations.EventFlagsAreSetExactlyByTheirEvents : Prop :=
  ∀ s t : State, step s = .next t →
    (t.irqStatus.getLsbD 0 = true ↔ s.completes ∨ (s.irqStatus.getLsbD 0 = true ∧ ¬ clearsFlag s 0)) ∧
    (t.irqStatus.getLsbD 1 = true ↔ (s.completes ∧ t.errcode ≠ .none) ∨
      (s.irqStatus.getLsbD 1 = true ∧ ¬ clearsFlag s 1)) ∧
    (t.irqStatus.getLsbD 2 = true ↔ (s.pending ≠ none ∧ ∃ w, s.writes .cmd w) ∨
      (s.irqStatus.getLsbD 2 = true ∧ ¬ clearsFlag s 2)) ∧
    (t.irqStatus.getLsbD 3 = true ↔ (s.pending ≠ none ∧ (s.reads .data ∨ s.reads .nbits ∨ ∃ w, s.writes .data w)) ∨
      (s.irqStatus.getLsbD 3 = true ∧ ¬ clearsFlag s 3))

/-- R26: STATUS.CMP changes only by a CMP that completes, or a reset; its encoding, its value and its reset value. -/
def Obligations.CmpIsWrittenOnlyByCmp : Prop :=
  (∀ s t : State, step s = .next t → t.cmp ≠ s.cmp →
    (s.completes ∧ ∃ rs1 rs2 ops, Running s (.cmp rs1 rs2) ops) ∨ (s.resets ∧ t.cmp = .eq)) ∧
  (∀ (s t : State) (rs1 rs2 : RegIdx) (a b : Nat), s.completes → Running s (.cmp rs1 rs2) [a, b] → step s = .next t →
    (a = b → t.cmp.bits = 0b00#2) ∧ (a < b → t.cmp.bits = 0b01#2) ∧ (b < a → t.cmp.bits = 0b10#2)) ∧
  (∀ c : Cmp, c.bits ≠ 0b11#2) ∧ State.reset.cmp.bits = 0b00#2

/-- R27: ERRCODE changes only by a completion, by an acceptance, which clears it, or by a reset, which clears it; ERR is
ERRCODE ≠ 0. -/
def Obligations.ErrorCodeIsWrittenOnlyBy : Prop :=
  (∀ s t : State, step s = .next t → t.errcode ≠ s.errcode →
    s.completes ∨ (s.pending = none ∧ (∃ w, s.writes .cmd w) ∧ t.errcode = .none) ∨ (s.resets ∧ t.errcode = .none)) ∧
  (∀ s t : State, step s = .next t → s.pending = none → (∃ w, s.writes .cmd w) → t.errcode = .none) ∧
  (∀ s : State, s.err = true ↔ s.errcode.bits ≠ 0#4) ∧ State.reset.errcode.bits = 0#4

/-- R22, R42, R59, R71: the operand registers change only at a completion without error, by a DATA write while Idle, or at
power-on. -/
def Obligations.RegistersAreWrittenOnlyBy : Prop :=
  ∀ s t : State, step s = .next t → t.x ≠ s.x →
    (s.completes ∧ t.errcode = .none) ∨ (s.pending = none ∧ ∃ w, s.writes .data w) ∨
      s.inputs.head? = some .resetPin

/-! ## Reset -/

/-- R33, R221, R222: a soft reset keeps the operand registers and their definedness, gives everything else its power-on value
and abandons a pending command. -/
def Obligations.SoftResetKeepsOnlyRegisters : Prop :=
  ∀ (s : State) (w : Word) (rest : List Input), s.inputs = hostWrite s.params .ctrl w :: rest →
    (w.getLsbD 0 = true → step s = .next
      { params := s.params, x := s.x, cmp := .eq, errcode := .none, cmd := 0, irqStatus := 0, irqEnable := 0, rsel := 0,
        widx := 0, pending := none, inputs := rest, responses := s.responses }) ∧
    (w.getLsbD 0 = false → step s = .next { s with inputs := rest })

/-- R220: what power-on reset leaves. The contents of the undefined words are the model's choice (log 1) and are not stated;
that the inputs to come stay is the model's choice (log 13). -/
def Obligations.PowerOnResetState : Prop :=
  ∀ (s : State) (rest : List Input), s.inputs = .resetPin :: rest →
    ∃ t, step s = .next t ∧ t.params = s.params ∧ t.x.length = s.params.nreg ∧
      (∀ r ∈ t.x, ∀ k, k ∈ r.undef ↔ k < s.params.capWords) ∧
      t.statusWord = 0 ∧ t.cmd = 0 ∧ t.irqStatus = 0 ∧ t.irqEnable = 0 ∧ t.rsel = 0 ∧ t.widx = 0 ∧ t.pending = none ∧
      t.irq = false ∧ t.inputs = rest

/-! ## The window

The answer of a read is the word appended to `responses`, the model's own record of what the BIC drives (log 5). -/

/-- R55, R58: DATA and NBITS reads, while Idle and while Busy. -/
def Obligations.DataAndNbitsReads : Prop :=
  ∀ (s : State) (rest : List Input),
    (s.pending = none → s.inputs = hostRead s.params .data :: rest → step s = .next { s with
      inputs := rest
      widx := BitVec.ofNat 16 ((s.widx.toNat + 1) % 2 ^ 16)
      responses := s.responses ++ [if s.rsel.toNat < s.params.nreg ∧ s.widx.toNat < s.params.capWords
        then BitVec.ofNat 32 (s.val s.rsel / 2 ^ (32 * s.widx.toNat)) else 0] }) ∧
    (s.pending = none → s.inputs = hostRead s.params .nbits :: rest → step s = .next { s with
      inputs := rest
      responses := s.responses ++ [if s.rsel.toNat < s.params.nreg then BitVec.ofNat 32 (nbits (s.val s.rsel)) else 0] }) ∧
    (s.pending ≠ none → s.inputs = hostRead s.params .data :: rest ∨ s.inputs = hostRead s.params .nbits :: rest →
      step s = .next { s with
        inputs := rest, irqStatus := s.irqStatus ||| 0b1000#4, responses := s.responses ++ [0] })

/-- R56: a DATA write while Idle replaces word k of x[RSEL] and no other word of any register, makes it defined, and advances
WIDX; out of range it only advances WIDX; while Busy it only sets ACCESS. -/
def Obligations.DataWriteReplacesOneWord : Prop :=
  ∀ (s : State) (w : Word) (rest : List Input), s.x.length = s.params.nreg →
    s.inputs = hostWrite s.params .data w :: rest →
    (s.pending ≠ none → step s = .next { s with inputs := rest, irqStatus := s.irqStatus ||| 0b1000#4 }) ∧
    (s.pending = none → ∃ t, step s = .next t ∧ t = { s with inputs := rest, x := t.x, widx := s.widx + 1 } ∧
      t.x.length = s.x.length ∧
      (¬(s.rsel.toNat < s.params.nreg ∧ s.widx.toNat < s.params.capWords) → t.x = s.x) ∧
      (s.rsel.toNat < s.params.nreg ∧ s.widx.toNat < s.params.capWords →
        t.val s.rsel = s.val s.rsel - (wordOf (s.val s.rsel) s.widx.toNat).toNat * 2 ^ (32 * s.widx.toNat)
          + w.toNat * 2 ^ (32 * s.widx.toNat) ∧
        wordOf (t.val s.rsel) s.widx.toNat = w ∧
        (∀ j, j ≠ s.widx.toNat → wordOf (t.val s.rsel) j = wordOf (s.val s.rsel) j) ∧
        (∀ j, j ∈ (t.reg s.rsel).undef ↔ j ∈ (s.reg s.rsel).undef ∧ j ≠ s.widx.toNat) ∧
        ∀ j, j ≠ s.rsel.toNat → t.x[j]? = s.x[j]?))

/-- R59: while Busy, DATA and NBITS reads return 0, DATA writes are discarded, WIDX stays, and ACCESS is set; every other
register stays readable. -/
def Obligations.WindowIsBlockedWhileBusy : Prop :=
  ∀ (s : State) (rest : List Input), s.pending ≠ none →
    (s.inputs = hostRead s.params .data :: rest ∨ s.inputs = hostRead s.params .nbits :: rest →
      step s = .next { s with
        inputs := rest, irqStatus := s.irqStatus ||| 0b1000#4, responses := s.responses ++ [0] }) ∧
    (∀ w, s.inputs = hostWrite s.params .data w :: rest →
      step s = .next { s with inputs := rest, irqStatus := s.irqStatus ||| 0b1000#4 }) ∧
    (∀ r : WinReg, r ≠ .data → r ≠ .nbits → s.inputs = hostRead s.params r :: rest →
      ∃ v, step s = .next { s with inputs := rest, responses := s.responses ++ [v] })

/-- R29 to R39: what a read of each register of the window but DATA and NBITS returns; no such read changes anything. -/
def Obligations.WindowReads : Prop :=
  ∀ (s : State) (rest : List Input) (r : WinReg), s.params.wf → r ≠ .data → r ≠ .nbits →
    s.inputs = hostRead s.params r :: rest →
    ∃ v : Word, step s = .next { s with inputs := rest, responses := s.responses ++ [v] } ∧
      v.toNat = match r with
        | .id => 0x42494301
        | .capbits => s.params.capBits
        | .nreg => s.params.nreg
        | .status => (if s.pending = none then 0 else 1) + (if s.errcode = .none then 0 else 2) +
            4 * s.cmp.bits.toNat + 16 * s.errcode.bits.toNat
        | .cmd => s.cmd.toNat
        | .irqStatus => s.irqStatus.toNat
        | .irqEnable => s.irqEnable.toNat
        | .rsel => s.rsel.toNat
        | .widx => s.widx.toNat
        | .ctrl | .data | .nbits | .reserved => 0

/-- R29, R36 to R39, R200: what a write of each register of the window but CTRL, CMD and DATA does. -/
def Obligations.WindowWrites : Prop :=
  ∀ (s : State) (w : Word) (rest : List Input),
    (s.inputs = hostWrite s.params .irqStatus w :: rest → ∃ f : BitVec 4,
      step s = .next { s with inputs := rest, irqStatus := f } ∧
      ∀ k < 4, f.getLsbD k = (s.irqStatus.getLsbD k && !w.getLsbD k)) ∧
    (s.inputs = hostWrite s.params .irqEnable w :: rest → ∃ f : BitVec 4,
      step s = .next { s with inputs := rest, irqEnable := f } ∧ f.toNat = w.toNat % 16) ∧
    (s.inputs = hostWrite s.params .rsel w :: rest → ∃ f : RegIdx,
      step s = .next { s with inputs := rest, rsel := f } ∧ f.toNat = w.toNat % 16) ∧
    (s.inputs = hostWrite s.params .widx w :: rest → ∃ f : BitVec 16,
      step s = .next { s with inputs := rest, widx := f } ∧ f.toNat = w.toNat % 65536) ∧
    ∀ r ∈ [WinReg.id, .capbits, .nreg, .status, .nbits, .reserved], s.inputs = hostWrite s.params r w :: rest →
      step s = .next { s with inputs := rest }

/-- R52: address bits [1:0] and the width of an access are ignored, whichever offset it reaches, and the strict machine
refuses every access that is not an aligned 32-bit one. With R29: every offset 0x30 to 0xFC, up to the end of the window,
reads 0 and ignores writes. -/
def Obligations.AccessesAreDecodedByWordOffset : Prop :=
  (∀ (s : State) (off : Nat) (size : Size) (w : Word), s.params.wf → off < 0x100 →
    hostTurn (.read (s.params.base + off) size) s = hostTurn (.read (s.params.base + off / 4 * 4) .word) s ∧
    hostTurn (.write (s.params.base + off) size w) s = hostTurn (.write (s.params.base + off / 4 * 4) .word w) s) ∧
  (∀ (s : State) (addr : Nat) (size : Size) (rest : List Input), s.inWindow addr = true →
    (size ≠ .word ∨ addr % 4 ≠ 0) →
    (s.inputs = .host (.read addr size) :: rest → Safety.strictStep s = .refused (.notWordAccess addr)) ∧
    ∀ w, s.inputs = .host (.write addr size w) :: rest → Safety.strictStep s = .refused (.notWordAccess addr)) ∧
  ∀ (s : State) (addr : Nat) (size : Size) (rest : List Input), s.params.base + 0x30 ≤ addr → addr < s.params.base + 0x100 →
    (s.inputs = .host (.read addr size) :: rest →
      step s = .next { s with inputs := rest, responses := s.responses ++ [0] }) ∧
    ∀ w, s.inputs = .host (.write addr size w) :: rest → step s = .next { s with inputs := rest }

/-- R199: irq is the OR over the four flags of set AND enabled. -/
def Obligations.IrqIsOrOfEnabledFlags : Prop :=
  (∀ s : State, s.irq = true ↔ ∃ k < 4, s.irqStatus.getLsbD k = true ∧ s.irqEnable.getLsbD k = true) ∧
  ∀ p : Params, (State.powerOn p).irq = false

/-- R86: the expansion of each pseudo-instruction; that a CMD write of it by an Idle core samples what its source registers
hold; and that it completes with what its row says. NOPR, whose operand is what x[rs] holds, leaves the value of every
register as before and completes with DONE. -/
def Obligations.PseudoInstructionsMeanWhatTheySay : Prop :=
  (∀ rd rs rm : RegIdx, expand (.clr rd) = .ldi rd 0 ∧ expand (.sqr rd rs) = .mul rd rs rs ∧
    expand (.dbl rd rs) = .shl rd rs 1 ∧ expand (.half rd rs) = .shr rd rs 1 ∧
    expand (.modsqr rd rs rm) = .modmul rd rs rs rm ∧ expand (.nopr rs) = .mov rs rs) ∧
  (∀ (p : Pseudo) (s : State) (rest : List Input), (expand p).wf s.params.nreg = true → s.pending = none →
    s.inputs = hostIssue s.params (expand p) :: rest →
    ∃ t, step s = .next t ∧ Running t (expand p) ((sources (expand p)).map s.val)) ∧
  ∀ (s : State) (rd rs rm : RegIdx) (a m : Nat),
    exec (expand (.clr rd)) (launched s (expand (.clr rd)) []) = .next (completed s [(rd, 0)] s.cmp .none) ∧
    (a ^ 2 < 2 ^ s.params.capBits → exec (expand (.sqr rd rs)) (launched s (expand (.sqr rd rs)) [a, a])
      = .next (completed s [(rd, a ^ 2)] s.cmp .none)) ∧
    (2 * a < 2 ^ s.params.capBits → exec (expand (.dbl rd rs)) (launched s (expand (.dbl rd rs)) [a])
      = .next (completed s [(rd, 2 * a)] s.cmp .none)) ∧
    exec (expand (.half rd rs)) (launched s (expand (.half rd rs)) [a]) = .next (completed s [(rd, a / 2)] s.cmp .none) ∧
    (m ≠ 0 → exec (expand (.modsqr rd rs rm)) (launched s (expand (.modsqr rd rs rm)) [a, a, m])
      = .next (completed s [(rd, a ^ 2 % m)] s.cmp .none)) ∧
    ∃ t, exec (expand (.nopr rs)) (launched s (expand (.nopr rs)) [s.val rs]) = .next t ∧
      t = completed s [(rs, s.val rs)] s.cmp .none ∧ (∀ r, t.val r = s.val r) ∧ t.irqStatus.getLsbD 0 = true

/-! ## The contents of undefined words -/

/-- R24, U1: the strict machine faults exactly where an undefined word is used, and is `step` at every other input that is no
narrow or misaligned access (those it refuses: AccessesAreDecodedByWordOffset). And whatever the undefined words hold, a run
that never uses one goes the same way and shows the host the same: two states that differ only there step alike under the
strict machine, and still differ only there. What the model chose for those words (log 1) can thus be seen only by a run that
the strict machine stops. -/
def Obligations.UndefinedContentsAreInvisible : Prop :=
  (∀ s : State, nextIsAligned s → (∃ r, usesUndefined s r) →
    ∃ r, usesUndefined s r ∧ Safety.strictStep s = .fault (.undefinedUse r)) ∧
  (∀ s : State, nextIsAligned s → (¬ ∃ r, usesUndefined s r) → Safety.strictStep s = step s) ∧
  ∀ s t s' : State, s.Inv → t.Inv → Safety.sameDefined s t → Safety.strictStep s = .next s' →
    ∃ t', Safety.strictStep t = .next t' ∧ Safety.sameDefined s' t' ∧ s'.responses = t'.responses ∧ step s = .next s'

end
end

