-- ==== Sys2Proof/Laws/Arith.lean ====
section
/-! SUPPORT. What the arithmetic units compute: one lemma for each loop and recursion of 40_core_arith.md, 41_multiply.md,
42_divide.md and 43_modular.md, and the laws of the significant bit length. -/

namespace Sys2Proof.Machine

/-- The length of 0 (R12). -/
theorem nbits_zero : nbits 0 = 0 := rfl

/-- A value lies below 2 to its length. -/
theorem lt_two_pow_nbits (v : Nat) : v < 2 ^ nbits v := by
  unfold nbits; split
  · simp [*]
  · exact Nat.lt_log2_self

/-- The length is the least such bound. -/
theorem nbits_le {v n : Nat} (h : v < 2 ^ n) : nbits v ≤ n := by
  unfold nbits; split
  · omega
  · exact (Nat.log2_lt (by assumption)).2 h

/-- Length and bound. -/
theorem nbits_le_iff {v n : Nat} : nbits v ≤ n ↔ v < 2 ^ n :=
  ⟨fun h => (lt_two_pow_nbits v).trans_le (Nat.pow_le_pow_right (by omega) h), nbits_le⟩

/-- Length and bound, the other way. -/
theorem lt_nbits_iff {v n : Nat} : n < nbits v ↔ 2 ^ n ≤ v := by
  rw [← not_le, nbits_le_iff, not_lt]

/-- The low bit as a number. -/
theorem testBit_zero_toNat (a : Nat) : (a.testBit 0).toNat = a % 2 := by
  rw [Nat.testBit_zero]; rcases Nat.mod_two_eq_zero_or_one a with h | h <;> simp [h]

/-- n cells add the n low bits and the carry in (R100). -/
theorem rippleCells_eq (n a b : Nat) (c : Bool) :
    rippleCells n a b c = a % 2 ^ n + b % 2 ^ n + c.toNat := by
  induction n generalizing a b c with
  | zero => simp [rippleCells, Nat.mod_one]
  | succ n ih =>
    simp only [rippleCells, ih, Nat.shiftRight_one]
    have h1 : a % 2 ^ (n+1) = a % 2 + 2 * (a / 2 % 2 ^ n) := by rw [pow_succ', Nat.mod_mul]
    have h2 : b % 2 ^ (n+1) = b % 2 + 2 * (b / 2 % 2 ^ n) := by rw [pow_succ', Nat.mod_mul]
    have ha := testBit_zero_toNat a
    have hb := testBit_zero_toNat b
    rw [h1, h2, ← ha, ← hb]
    cases a.testBit 0 <;> cases b.testBit 0 <;> cases c <;> simp [majority] <;> omega

/-- The adder gives the sum. -/
theorem rippleAdd_eq (a b : Nat) : rippleAdd a b = a + b := by
  rw [rippleAdd, rippleCells_eq, Nat.mod_eq_of_lt, Nat.mod_eq_of_lt]
  · simp
  · exact nbits_le_iff.1 (le_max_right _ _)
  · exact nbits_le_iff.1 (le_max_left _ _)

/-- The scan of R109 below a common high part is the order. -/
theorem scanDown_eq (n a b : Nat) (h : a / 2 ^ n = b / 2 ^ n) :
    scanDown n a b = if a = b then .eq else if a < b then .lt else .gt := by
  induction n with
  | zero => simp at h; simp [scanDown, h]
  | succ n ih =>
    have e1 : a / 2 ^ n / 2 = b / 2 ^ n / 2 := by rw [Nat.div_div_eq_div_mul, Nat.div_div_eq_div_mul, ← pow_succ, h]
    have ta := testBit_zero_toNat (a / 2 ^ n)
    have tb := testBit_zero_toNat (b / 2 ^ n)
    have xa : (a / 2 ^ n).testBit 0 = a.testBit n := by rw [Nat.testBit_div_two_pow, Nat.zero_add]
    have xb : (b / 2 ^ n).testBit 0 = b.testBit n := by rw [Nat.testBit_div_two_pow, Nat.zero_add]
    rw [xa] at ta; rw [xb] at tb
    have key : ∀ x y : Nat, x / 2 ^ n < y / 2 ^ n → x < y := by
      intro x y hxy
      by_contra hc
      exact absurd (Nat.div_le_div_right (c := 2 ^ n) (not_lt.1 hc)) (by omega)
    unfold scanDown
    by_cases hbit : a.testBit n = b.testBit n
    · rw [if_pos hbit]; apply ih; rw [hbit] at ta; omega
    · rw [if_neg hbit]
      by_cases hat : a.testBit n
      · have hbt : b.testBit n = false := by cases hh : b.testBit n <;> simp_all
        rw [if_pos hat]
        rw [hat] at ta; rw [hbt] at tb; simp at ta tb
        have := key b a (by omega)
        rw [if_neg (by omega), if_neg (by omega)]
      · have hbt : b.testBit n = true := by cases hh : b.testBit n <;> simp_all
        simp at hat
        rw [hat] at ta; rw [hbt] at tb; simp at ta tb
        have := key a b (by omega)
        rw [hat, if_neg (by simp), if_neg (by omega), if_pos this]

/-- The loop of R131 over n bits. -/
theorem schoolLoop_eq (n a acc f : Nat) : schoolLoop n a acc f = acc + (a % 2 ^ n) * f := by
  induction n generalizing a acc f with
  | zero => simp [schoolLoop, Nat.mod_one]
  | succ n ih =>
    simp only [schoolLoop, ih, Nat.shiftRight_one]
    have h1 : a % 2 ^ (n+1) = a % 2 + 2 * (a / 2 % 2 ^ n) := by rw [pow_succ', Nat.mod_mul]
    rw [h1, ← testBit_zero_toNat a, Nat.shiftLeft_eq]
    cases a.testBit 0 <;> simp <;> ring

/-- Schoolbook multiplication gives the product. -/
theorem school_eq (a b : Nat) : school a b = a * b := by
  rw [school, schoolLoop_eq, Nat.mod_eq_of_lt (lt_two_pow_nbits a)]; simp

/-- R132 with enough levels gives the product. -/
theorem karaFuel_eq (k a b : Nat) (h : a + b ≤ k) : karaFuel k a b = a * b := by
  induction k generalizing a b with
  | zero => obtain rfl : a = 0 := by omega
            simp [karaFuel]
  | succ k ih =>
    unfold karaFuel
    split; · rename_i h; rcases h with h | h <;> simp [h]
    split; · simp [*]
    split; · simp [*]
    simp only
    rename_i h0 h1 h2
    set n := max (nbits a) (nbits b) with hn
    set hh := (n + 1) / 2 with hhh
    have ha : a < 2 ^ n := nbits_le_iff.1 (le_max_left _ _)
    have hb : b < 2 ^ n := nbits_le_iff.1 (le_max_right _ _)
    have hn2 : 2 ≤ n := by
      have : 1 < nbits a := lt_nbits_iff.2 (by omega)
      omega
    have hlt : hh < n := by omega
    have hor : 2 ^ hh ≤ a ∨ 2 ^ hh ≤ b := by
      rw [← lt_nbits_iff, ← lt_nbits_iff]; omega
    have h2h : 2 ≤ 2 ^ hh := by
      calc 2 = 2 ^ 1 := rfl
        _ ≤ _ := Nat.pow_le_pow_right (by omega) (by omega)
    simp only [Nat.shiftRight_eq_div_pow, Nat.shiftLeft_eq]
    set B := 2 ^ hh
    have da := Nat.div_add_mod a B
    have db := Nat.div_add_mod b B
    set L := a / B
    set R := a % B
    set Lf := b / B
    set Rf := b % B
    have hL : B * L ≥ 2 * L := Nat.mul_le_mul_right _ h2h
    have hLf : B * Lf ≥ 2 * Lf := Nat.mul_le_mul_right _ h2h
    have hpos : 0 < L ∨ 0 < Lf := by
      rcases hor with h | h
      · left; exact Nat.div_pos h (by omega)
      · right; exact Nat.div_pos h (by omega)
    rw [ih L Lf (by omega), ih R Rf (by omega), ih (L + R) (Lf + Rf) (by omega)]
    have e3 : (L + R) * (Lf + Rf) - L * Lf - R * Rf = L * Rf + R * Lf := by
      have : (L + R) * (Lf + Rf) = L * Lf + R * Rf + (L * Rf + R * Lf) := by ring
      omega
    rw [e3, two_mul, pow_add]
    show L * Lf * (B * B) + (L * Rf + R * Lf) * B + R * Rf = a * b
    rw [← da, ← db]; ring

/-- a + b levels are enough (log 16). -/
theorem kara_eq (a b : Nat) : kara a b = a * b := karaFuel_eq _ _ _ le_rfl

/-- The recursion of R150 over the n low bits. -/
theorem quadDivBits_eq (n a b : Nat) (hb : 0 < b) (ha : a < 2 ^ n) : quadDivBits n a b = (a / b, a % b) := by
  induction n generalizing a with
  | zero => obtain rfl : a = 0 := by simpa using ha
            simp [quadDivBits]
  | succ n ih =>
    unfold quadDivBits
    split; · simp [*]
    have h2 : a / 2 < 2 ^ n := by rw [pow_succ] at ha; omega
    rw [Nat.shiftRight_one, ih _ h2]
    have e := testBit_zero_toNat a
    simp only [quadDivStep, e]
    have d1 := Nat.div_add_mod (a/2) b
    have d2 := Nat.mod_lt (a/2) hb
    have key : ∀ q r, q * b + r = a → r < b → (a / b = q ∧ a % b = r) := by
      intro q r h1 h2
      constructor
      · rw [← h1, mul_comm, Nat.mul_add_div hb, Nat.div_eq_of_lt h2]; rfl
      · rw [← h1, mul_comm, Nat.mul_add_mod, Nat.mod_eq_of_lt h2]
    split
    · obtain ⟨x, y⟩ := key (2 * (a/2/b) + 1) (2 * (a/2%b) + a % 2 - b) (by
        have : (2 * (a/2/b) + 1) * b = 2 * (b * (a/2/b)) + b := by ring
        omega) (by omega)
      rw [x, y]
    · obtain ⟨x, y⟩ := key (2 * (a/2/b)) (2 * (a/2%b) + a % 2) (by
        have : (2 * (a/2/b)) * b = 2 * (b * (a/2/b)) := by ring
        omega) (by omega)
      rw [x, y]

/-- The reduction of the modular commands is the remainder (R153). -/
theorem reduce_eq (a m : Nat) (hm : 0 < m) : reduce a m = a % m := by
  rw [reduce, quadDiv, quadDivBits_eq _ _ _ hm (lt_two_pow_nbits a)]

/-- The recursion of R170 over the n low bits of the exponent. -/
theorem modExpBits_eq (n a e m : Nat) (hm : 0 < m) (he : e < 2 ^ n) :
    modExpBits n a e m = if e = 0 then 1 else a ^ e % m := by
  induction n generalizing e with
  | zero => obtain rfl : e = 0 := by simpa using he
            simp [modExpBits]
  | succ n ih =>
    unfold modExpBits
    split; · rfl
    have h2 : e / 2 < 2 ^ n := by rw [pow_succ] at he; omega
    rw [Nat.shiftRight_one, ih _ h2]
    simp only [modExpStep, school_eq, reduce_eq _ _ hm]
    have hbit := testBit_zero_toNat e
    have base : ∀ r, r % m = a ^ (e/2) % m → r * r % m = a ^ (2 * (e/2)) % m := by
      intro r hr
      rw [two_mul, pow_add, Nat.mul_mod, hr, ← Nat.mul_mod]
    have hr : (if e / 2 = 0 then 1 else a ^ (e / 2) % m) % m = a ^ (e/2) % m := by
      split
      · rename_i h; rw [h, pow_zero]
      · exact Nat.mod_mod _ _
    rw [base _ hr]
    split
    · rename_i h; rw [h] at hbit; simp at hbit
      rw [Nat.mod_mul_mod, ← pow_succ]; congr 2; omega
    · rename_i h; simp only [Bool.not_eq_true] at h; rw [h] at hbit; simp at hbit
      congr 2; omega

/-- The value of a coefficient-wise sum. -/
theorem digitsValue_addCoeffs (xs ys : List Nat) : digitsValue (addCoeffs xs ys) = digitsValue xs + digitsValue ys := by
  induction xs, ys using addCoeffs.induct with
  | case1 ys => simp [addCoeffs, digitsValue]
  | case2 xs h => cases xs <;> simp_all [addCoeffs, digitsValue]
  | case3 x xs y ys ih => simp [addCoeffs, digitsValue, ih]; ring

/-- The value of a scaled sequence. -/
theorem digitsValue_map (a : Nat) (bs : List Nat) : digitsValue (bs.map (a * ·)) = a * digitsValue bs := by
  induction bs with
  | nil => simp [digitsValue]
  | cons b bs ih => simp [digitsValue, ih]; ring

/-- The value of a linear convolution is the product of the values. -/
theorem digitsValue_convolve (as bs : List Nat) : digitsValue (convolve as bs) = digitsValue as * digitsValue bs := by
  induction as with
  | nil => simp [convolve, digitsValue]
  | cons a as ih =>
    unfold convolve; split
    · simp [digitsValue, *]; ring
    · simp [digitsValue_addCoeffs, digitsValue_map, digitsValue, ih]; ring

/-- A coefficient of a sum. -/
theorem getD_addCoeffs (xs ys : List Nat) (k : Nat) : (addCoeffs xs ys).getD k 0 = xs.getD k 0 + ys.getD k 0 := by
  induction xs, ys using addCoeffs.induct generalizing k with
  | case1 ys => simp [addCoeffs]
  | case2 xs h => cases xs <;> simp_all [addCoeffs]
  | case3 x xs y ys ih => cases k <;> simp_all [addCoeffs]

/-- A coefficient of a scaled sequence. -/
theorem getD_map_mul (a : Nat) (bs : List Nat) (k : Nat) : (bs.map (a * ·)).getD k 0 = a * bs.getD k 0 := by
  induction bs generalizing k with
  | nil => simp
  | cons b bs ih => cases k <;> simp_all

/-- Convolution with zero coefficients. -/
theorem convolve_zero (as bs : List Nat) (h : ∀ i, as.getD i 0 = 0) (k : Nat) : (convolve as bs).getD k 0 = 0 := by
  induction as generalizing k with
  | nil => simp [convolve]
  | cons a as ih =>
    have h0 : a = 0 := by simpa using h 0
    have ht : ∀ i, as.getD i 0 = 0 := fun i => by simpa using h (i+1)
    unfold convolve; rw [if_pos h0]
    cases k with
    | zero => simp
    | succ k => simpa using ih ht k

/-- The convolution of p and q coefficients has none from p + q - 1 on. -/
theorem convolve_high (as bs : List Nat) (p q : Nat) (ha : ∀ i ≥ p, as.getD i 0 = 0) (hb : ∀ i ≥ q, bs.getD i 0 = 0)
    (k : Nat) (hk : p + q ≤ k + 1) : (convolve as bs).getD k 0 = 0 := by
  induction as generalizing k p with
  | nil => simp [convolve]
  | cons a as ih =>
    rcases p with _ | p
    · exact convolve_zero _ _ (fun i => ha i (Nat.zero_le _)) k
    · have ht : ∀ i ≥ p, as.getD i 0 = 0 := fun i hi => by simpa using ha (i+1) (by omega)
      have tail : ((0 : Nat) :: convolve as bs).getD k 0 = 0 := by
        cases k with
        | zero => simp
        | succ k => simpa using ih p ht k (by omega)
      unfold convolve; split
      · exact tail
      · rw [getD_addCoeffs, getD_map_mul, tail, hb k (by omega)]; simp

/-- A sequence of n coefficients does not wrap in a cyclic convolution of length n. -/
theorem digitsValue_take_drop (n : Nat) (c : List Nat) (h : ∀ k ≥ n, c.getD k 0 = 0) :
    digitsValue (addCoeffs (c.take n) (c.drop n)) = digitsValue c := by
  rw [digitsValue_addCoeffs]
  have z : ∀ l : List Nat, (∀ k, l.getD k 0 = 0) → digitsValue l = 0 := by
    intro l; induction l with
    | nil => intro _; rfl
    | cons x xs ih => intro hl; simp [digitsValue, ih (fun k => by simpa using hl (k+1))]; simpa using hl 0
  induction n generalizing c with
  | zero => simp [digitsValue]
  | succ n ih =>
    cases c with
    | nil => simp [digitsValue]
    | cons x xs =>
      have := ih xs (fun k hk => by simpa using h (k+1) (by omega))
      have zz := z (xs.drop n) (fun k => by
        have := h (n + k + 1) (by omega)
        simpa [List.getD_eq_getElem?_getD, List.getElem?_drop] using this)
      simp only [List.take_succ_cons, List.drop_succ_cons, digitsValue] at *
      omega

/-- Carry-propagation keeps the value. -/
theorem digitsValue_carry (c : List Nat) (k : Nat) : digitsValue (carryDigits c k) = digitsValue c + k := by
  induction c generalizing k with
  | nil => simp [carryDigits, digitsValue]
  | cons x xs ih => simp [carryDigits, digitsValue, ih]; omega

/-- The value of the l low digits. -/
theorem digitsValue_hexDigits (l v : Nat) : digitsValue (hexDigits l v) = v % 16 ^ l := by
  induction l generalizing v with
  | zero => simp [hexDigits, digitsValue, Nat.mod_one]
  | succ l ih => simp [hexDigits, digitsValue, ih, Nat.shiftRight_eq_div_pow, pow_succ', Nat.mod_mul]

/-- The number of digits. -/
theorem hexDigits_length (l v : Nat) : (hexDigits l v).length = l := by
  induction l generalizing v with
  | zero => rfl
  | succ l ih => simp [hexDigits, ih]

/-- Zeros on top keep the value. -/
theorem digitsValue_append_zeros (c : List Nat) (k : Nat) : digitsValue (c ++ List.replicate k 0) = digitsValue c := by
  induction c with
  | nil => induction k with
    | zero => rfl
    | succ k ih => simp_all [List.replicate_succ, digitsValue]
  | cons x xs ih => simp [digitsValue, ih]

/-- Padding keeps the value. -/
theorem padTo_value (n : Nat) (c : List Nat) : digitsValue (padTo n c) = digitsValue c := digitsValue_append_zeros _ _

/-- Padding adds zeros only. -/
theorem padTo_high (n : Nat) (c : List Nat) (i : Nat) (h : c.length ≤ i) : (padTo n c).getD i 0 = 0 := by
  simp [padTo, List.getD_eq_getElem?_getD, List.getElem?_append_right h, List.getElem?_replicate]
  split <;> rfl

/-- digitCount digits hold the value (R133). -/
theorem lt_pow_digitCount (v : Nat) : v < 16 ^ digitCount v := by
  have : (16 : Nat) = 2 ^ 4 := rfl
  rw [this, ← pow_mul]
  exact nbits_le_iff.1 (by unfold digitCount; omega)

/-- The transform is long enough (R133). -/
theorem le_nextPow2 (n : Nat) : n ≤ nextPow2 n := by
  have := lt_two_pow_nbits (n - 1)
  unfold nextPow2; omega

/-- The transform multiplication gives the product. -/
theorem trans_eq (a b : Nat) : trans a b = a * b := by
  unfold trans
  split; · rename_i h; rcases h with h | h <;> simp [h]
  simp only [transformProduct]
  rw [digitsValue_carry, digitsValue_take_drop, digitsValue_convolve, padTo_value, padTo_value, digitsValue_hexDigits,
    digitsValue_hexDigits, Nat.mod_eq_of_lt (lt_pow_digitCount a), Nat.mod_eq_of_lt (lt_pow_digitCount b)]
  · rfl
  · intro k hk
    have := le_nextPow2 (digitCount a + digitCount b - 1)
    apply convolve_high _ _ (digitCount a) (digitCount b)
    · intro i hi; exact padTo_high _ _ _ (by rw [hexDigits_length]; exact hi)
    · intro i hi; exact padTo_high _ _ _ (by rw [hexDigits_length]; exact hi)
    · omega

end Sys2Proof.Machine
end

