-- ==== Sys2Proof/Laws/Decode.lean ====
section
/-! SUPPORT. The bits of the two formats, the fields read back from them, and the bits of a word's fields. -/

namespace Sys2Proof

variable (op : BitVec 5) (fn : BitVec 3) (rd rs1 rs2 rs3 : RegIdx) (imm : Imm16)

/-- Format R bit by bit (R76). -/
theorem formatR_bit (k : Nat) : (formatR op fn rd rs1 rs2 rs3).getLsbD k =
    if k < 8 then false
    else if k < 12 then rs3.getLsbD (k - 8)
    else if k < 16 then rs2.getLsbD (k - 12)
    else if k < 20 then rs1.getLsbD (k - 16)
    else if k < 24 then rd.getLsbD (k - 20)
    else if k < 27 then fn.getLsbD (k - 24)
    else op.getLsbD (k - 27) := by
  change BitVec.getLsbD (w := 5 + 3 + 4 + 4 + 4 + 4 + 8) (op ++ fn ++ rd ++ rs1 ++ rs2 ++ rs3 ++ 0#8) k = _
  simp only [BitVec.getLsbD_append]
  simp only [Nat.sub_sub, Nat.reduceAdd]
  repeat' split
  all_goals first | omega | rfl | simp

/-- Format I bit by bit (R77). -/
theorem formatI_bit (k : Nat) : (formatI op rd rs1 imm).getLsbD k =
    if k < 16 then imm.getLsbD k
    else if k < 20 then rs1.getLsbD (k - 16)
    else if k < 24 then rd.getLsbD (k - 20)
    else if k < 27 then false
    else op.getLsbD (k - 27) := by
  change BitVec.getLsbD (w := 5 + 3 + 4 + 4 + 16) (op ++ 0#3 ++ rd ++ rs1 ++ imm) k = _
  simp only [BitVec.getLsbD_append]
  simp only [Nat.sub_sub, Nat.reduceAdd]
  repeat' split
  all_goals first | omega | rfl | simp

@[simp] theorem opField_formatR : opField (formatR op fn rd rs1 rs2 rs3) = op := by
  apply BitVec.eq_of_getLsbD_eq; intro i hi
  simp only [opField, BitVec.getLsbD_extractLsb', formatR_bit]; interval_cases i <;> rfl
@[simp] theorem fnField_formatR : fnField (formatR op fn rd rs1 rs2 rs3) = fn := by
  apply BitVec.eq_of_getLsbD_eq; intro i hi
  simp only [fnField, BitVec.getLsbD_extractLsb', formatR_bit]; interval_cases i <;> rfl
@[simp] theorem rdField_formatR : rdField (formatR op fn rd rs1 rs2 rs3) = rd := by
  apply BitVec.eq_of_getLsbD_eq; intro i hi
  simp only [rdField, BitVec.getLsbD_extractLsb', formatR_bit]; interval_cases i <;> rfl
@[simp] theorem rs1Field_formatR : rs1Field (formatR op fn rd rs1 rs2 rs3) = rs1 := by
  apply BitVec.eq_of_getLsbD_eq; intro i hi
  simp only [rs1Field, BitVec.getLsbD_extractLsb', formatR_bit]; interval_cases i <;> rfl
@[simp] theorem rs2Field_formatR : rs2Field (formatR op fn rd rs1 rs2 rs3) = rs2 := by
  apply BitVec.eq_of_getLsbD_eq; intro i hi
  simp only [rs2Field, BitVec.getLsbD_extractLsb', formatR_bit]; interval_cases i <;> rfl
@[simp] theorem rs3Field_formatR : rs3Field (formatR op fn rd rs1 rs2 rs3) = rs3 := by
  apply BitVec.eq_of_getLsbD_eq; intro i hi
  simp only [rs3Field, BitVec.getLsbD_extractLsb', formatR_bit]; interval_cases i <;> rfl

@[simp] theorem opField_formatI : opField (formatI op rd rs1 imm) = op := by
  apply BitVec.eq_of_getLsbD_eq; intro i hi
  simp only [opField, BitVec.getLsbD_extractLsb', formatI_bit]; interval_cases i <;> rfl
@[simp] theorem fnField_formatI : fnField (formatI op rd rs1 imm) = 0#3 := by
  apply BitVec.eq_of_getLsbD_eq; intro i hi
  simp only [fnField, BitVec.getLsbD_extractLsb', formatI_bit]; interval_cases i <;> simp
@[simp] theorem rdField_formatI : rdField (formatI op rd rs1 imm) = rd := by
  apply BitVec.eq_of_getLsbD_eq; intro i hi
  simp only [rdField, BitVec.getLsbD_extractLsb', formatI_bit]; interval_cases i <;> rfl
@[simp] theorem rs1Field_formatI : rs1Field (formatI op rd rs1 imm) = rs1 := by
  apply BitVec.eq_of_getLsbD_eq; intro i hi
  simp only [rs1Field, BitVec.getLsbD_extractLsb', formatI_bit]; interval_cases i <;> rfl
@[simp] theorem immField_formatI : immField (formatI op rd rs1 imm) = imm := by
  apply BitVec.eq_of_getLsbD_eq; intro i hi
  simp only [immField, BitVec.getLsbD_extractLsb', formatI_bit, Nat.zero_add, hi]; simp

/-- A word is its format-R fields and its low byte. -/
theorem word_bits_formatR {w : Word} (hz : w.extractLsb' 0 8 = 0#8) :
    formatR (opField w) (fnField w) (rdField w) (rs1Field w) (rs2Field w) (rs3Field w) = w := by
  apply BitVec.eq_of_getLsbD_eq; intro i hi
  have hb : i < 8 → w.getLsbD i = false := fun h => by
    have := congrArg (BitVec.getLsbD · i) hz; simpa [h] using this
  simp only [formatR_bit, opField, fnField, rdField, rs1Field, rs2Field, rs3Field, BitVec.getLsbD_extractLsb']
  interval_cases i <;> simp_all

/-- A word whose FN is 000 is its format-I fields. -/
theorem word_bits_formatI {w : Word} (hf : fnField w = 0#3) :
    formatI (opField w) (rdField w) (rs1Field w) (immField w) = w := by
  apply BitVec.eq_of_getLsbD_eq; intro i hi
  have hb : ∀ j < 3, w.getLsbD (24 + j) = false := fun j h => by
    have := congrArg (BitVec.getLsbD · j) hf; simpa [fnField, h] using this
  have h0 := hb 0 (by omega); have h1 := hb 1 (by omega); have h2 := hb 2 (by omega)
  simp only [formatI_bit, opField, rdField, rs1Field, immField, BitVec.getLsbD_extractLsb']
  interval_cases i <;> simp_all

/-- The byte lanes of a word bit by bit (R53). -/
theorem wordOfLanes_bit (l0 l1 l2 l3 : Byte) (k : Nat) : (wordOfLanes l0 l1 l2 l3).getLsbD k =
    if k < 8 then l0.getLsbD k
    else if k < 16 then l1.getLsbD (k - 8)
    else if k < 24 then l2.getLsbD (k - 16)
    else l3.getLsbD (k - 24) := by
  change BitVec.getLsbD (w := 8 + 8 + 8 + 8) (l3 ++ l2 ++ l1 ++ l0) k = _
  simp only [BitVec.getLsbD_append]
  simp only [Nat.sub_sub, Nat.reduceAdd]
  repeat' split
  all_goals first | omega | rfl

/-! The masks of R81. -/

/-- The masks of R81 keep the opcode and the function and drop the register fields: three register fields. -/
theorem mask_fff (op : BitVec 5) (fn : BitVec 3) (rd rs1 rs2 : RegIdx) :
    formatR op fn rd rs1 rs2 0#4 &&& 0xff000fff#32 = formatR op fn 0 0 0 0 := by
  apply BitVec.eq_of_getLsbD_eq; intro i hi
  simp only [BitVec.getLsbD_and, formatR_bit]; interval_cases i <;> simp

/-- Four register fields. -/
theorem mask_ff (op : BitVec 5) (fn : BitVec 3) (rd rs1 rs2 rs3 : RegIdx) :
    formatR op fn rd rs1 rs2 rs3 &&& 0xff0000ff#32 = formatR op fn 0 0 0 0 := by
  apply BitVec.eq_of_getLsbD_eq; intro i hi
  simp only [BitVec.getLsbD_and, formatR_bit]; interval_cases i <;> simp

/-- CMP. -/
theorem mask_cmp (op : BitVec 5) (fn : BitVec 3) (rs1 rs2 : RegIdx) :
    formatR op fn 0#4 rs1 rs2 0#4 &&& 0xfff00fff#32 = formatR op fn 0 0 0 0 := by
  apply BitVec.eq_of_getLsbD_eq; intro i hi
  simp only [BitVec.getLsbD_and, formatR_bit]; interval_cases i <;> simp

/-- MOV. -/
theorem mask_mov (op : BitVec 5) (fn : BitVec 3) (rd rs1 : RegIdx) :
    formatR op fn rd rs1 0#4 0#4 &&& 0xff00ffff#32 = formatR op fn 0 0 0 0 := by
  apply BitVec.eq_of_getLsbD_eq; intro i hi
  simp only [BitVec.getLsbD_and, formatR_bit]; interval_cases i <;> simp

/-- SHL, SHR. -/
theorem mask_I (op : BitVec 5) (rd rs1 : RegIdx) (imm : Imm16) :
    formatI op rd rs1 imm &&& 0xff000000#32 = formatI op 0 0 0 := by
  apply BitVec.eq_of_getLsbD_eq; intro i hi
  simp only [BitVec.getLsbD_and, formatI_bit]; interval_cases i <;> simp

/-- LDI. -/
theorem mask_ldi (op : BitVec 5) (rd : RegIdx) (imm : Imm16) :
    formatI op rd 0#4 imm &&& 0xff0f0000#32 = formatI op 0 0 0 := by
  apply BitVec.eq_of_getLsbD_eq; intro i hi
  simp only [BitVec.getLsbD_and, formatI_bit]; interval_cases i <;> simp

/-- A bit the mask keeps is the match's bit. -/
theorem bit_of_mask {w k m : Word} (h : w &&& k = m) (i : Nat) (hk : k.getLsbD i = true) : w.getLsbD i = m.getLsbD i := by
  rw [← h]; simp [hk]

/-- A field the mask keeps whole is the match's field. -/
theorem field_of {w k m : Word} (h : w &&& k = m) (lo len : Nat) (hk : ∀ i < len, k.getLsbD (lo + i) = true) :
    w.extractLsb' lo len = m.extractLsb' lo len := by
  apply BitVec.eq_of_getLsbD_eq; intro i hi
  simp [hi, bit_of_mask h _ (hk i hi)]

/-- A word that passes its row's mask and the register checks decodes to the row's command (R88). -/
theorem decode_of_row {nreg : Nat} {w : Word} {row : Row} (h : opcodeRow w = some row) (hm : w &&& row.mask = row.mtch)
    (hwf : row.instr.wf nreg = true) : decode nreg w = .legal row.instr := by
  simp only [Instr.wf, Bool.and_eq_true] at hwf
  simp only [decode, h]
  rw [if_neg (by simp [hm]), if_neg (by simp [hwf.1]), if_neg (by simp [hwf.2])]

/-- What a decoded word is: a row of the map, its mask passed, its register checks passed (R88). -/
theorem row_of_decode {nreg : Nat} {w : Word} {i : Instr} (h : decode nreg w = .legal i) :
    ∃ row, opcodeRow w = some row ∧ w &&& row.mask = row.mtch ∧ row.instr = i ∧ i.wf nreg = true := by
  unfold decode at h
  split at h; · simp at h
  rename_i row hrow
  split at h; · simp at h
  split at h; · simp at h
  split at h; · simp at h
  rename_i hm h1 h2
  simp only [Decoded.legal.injEq] at h
  subst h
  exact ⟨row, hrow, by simpa using hm, rfl, by simp_all [Instr.wf]⟩

end Sys2Proof
end

