-- ==== Sys2Proof/Laws/State.lean ====
section
/-! SUPPORT. What each operation leaves in each field of the state: one lemma a field an operation. -/

namespace Sys2Proof.Machine

namespace State

variable (s : State)

/-! `writeX` -/

@[simp] theorem writeX_params (i : RegIdx) (v : Nat) : (s.writeX i v).params = s.params := rfl
@[simp] theorem writeX_x (i : RegIdx) (v : Nat) : (s.writeX i v).x = s.x.set i.toNat (OpReg.written v) := rfl
@[simp] theorem writeX_cmp (i : RegIdx) (v : Nat) : (s.writeX i v).cmp = s.cmp := rfl
@[simp] theorem writeX_errcode (i : RegIdx) (v : Nat) : (s.writeX i v).errcode = s.errcode := rfl
@[simp] theorem writeX_cmd (i : RegIdx) (v : Nat) : (s.writeX i v).cmd = s.cmd := rfl
@[simp] theorem writeX_irqStatus (i : RegIdx) (v : Nat) : (s.writeX i v).irqStatus = s.irqStatus := rfl
@[simp] theorem writeX_irqEnable (i : RegIdx) (v : Nat) : (s.writeX i v).irqEnable = s.irqEnable := rfl
@[simp] theorem writeX_rsel (i : RegIdx) (v : Nat) : (s.writeX i v).rsel = s.rsel := rfl
@[simp] theorem writeX_widx (i : RegIdx) (v : Nat) : (s.writeX i v).widx = s.widx := rfl
@[simp] theorem writeX_pending (i : RegIdx) (v : Nat) : (s.writeX i v).pending = s.pending := rfl
@[simp] theorem writeX_inputs (i : RegIdx) (v : Nat) : (s.writeX i v).inputs = s.inputs := rfl
@[simp] theorem writeX_responses (i : RegIdx) (v : Nat) : (s.writeX i v).responses = s.responses := rfl

/-! `complete` -/

@[simp] theorem complete_params (e : ErrCode) : (s.complete e).params = s.params := rfl
@[simp] theorem complete_x (e : ErrCode) : (s.complete e).x = s.x := rfl
@[simp] theorem complete_cmp (e : ErrCode) : (s.complete e).cmp = s.cmp := rfl
@[simp] theorem complete_errcode (e : ErrCode) : (s.complete e).errcode = e := rfl
@[simp] theorem complete_cmd (e : ErrCode) : (s.complete e).cmd = s.cmd := rfl
@[simp] theorem complete_irqStatus (e : ErrCode) : (s.complete e).irqStatus = s.irqStatus ||| completionFlags e := rfl
@[simp] theorem complete_irqEnable (e : ErrCode) : (s.complete e).irqEnable = s.irqEnable := rfl
@[simp] theorem complete_rsel (e : ErrCode) : (s.complete e).rsel = s.rsel := rfl
@[simp] theorem complete_widx (e : ErrCode) : (s.complete e).widx = s.widx := rfl
@[simp] theorem complete_pending (e : ErrCode) : (s.complete e).pending = none := rfl
@[simp] theorem complete_inputs (e : ErrCode) : (s.complete e).inputs = s.inputs := rfl
@[simp] theorem complete_responses (e : ErrCode) : (s.complete e).responses = s.responses := rfl

/-! `accept` -/

@[simp] theorem accept_params (w : Word) : (s.accept w).params = s.params := rfl
@[simp] theorem accept_x (w : Word) : (s.accept w).x = s.x := rfl
@[simp] theorem accept_cmp (w : Word) : (s.accept w).cmp = s.cmp := rfl
@[simp] theorem accept_errcode (w : Word) : (s.accept w).errcode = .none := rfl
@[simp] theorem accept_cmd (w : Word) : (s.accept w).cmd = w := rfl
@[simp] theorem accept_irqStatus (w : Word) : (s.accept w).irqStatus = s.irqStatus := rfl
@[simp] theorem accept_irqEnable (w : Word) : (s.accept w).irqEnable = s.irqEnable := rfl
@[simp] theorem accept_rsel (w : Word) : (s.accept w).rsel = s.rsel := rfl
@[simp] theorem accept_widx (w : Word) : (s.accept w).widx = s.widx := rfl
@[simp] theorem accept_pending (w : Word) : (s.accept w).pending = some { work := workOf (decode s.params.nreg w), operands := s.sampleFor (decode s.params.nreg w) } := rfl
@[simp] theorem accept_inputs (w : Word) : (s.accept w).inputs = s.inputs := rfl
@[simp] theorem accept_responses (w : Word) : (s.accept w).responses = s.responses := rfl

/-! `softReset` -/

@[simp] theorem softReset_params : (s.softReset).params = s.params := rfl
@[simp] theorem softReset_x : (s.softReset).x = s.x := rfl
@[simp] theorem softReset_cmp : (s.softReset).cmp = .eq := rfl
@[simp] theorem softReset_errcode : (s.softReset).errcode = .none := rfl
@[simp] theorem softReset_cmd : (s.softReset).cmd = 0 := rfl
@[simp] theorem softReset_irqStatus : (s.softReset).irqStatus = 0 := rfl
@[simp] theorem softReset_irqEnable : (s.softReset).irqEnable = 0 := rfl
@[simp] theorem softReset_rsel : (s.softReset).rsel = 0 := rfl
@[simp] theorem softReset_widx : (s.softReset).widx = 0 := rfl
@[simp] theorem softReset_pending : (s.softReset).pending = none := rfl
@[simp] theorem softReset_inputs : (s.softReset).inputs = s.inputs := rfl
@[simp] theorem softReset_responses : (s.softReset).responses = s.responses := rfl

/-! `powerOnReset` -/

@[simp] theorem powerOnReset_params : (s.powerOnReset).params = s.params := rfl
@[simp] theorem powerOnReset_x : (s.powerOnReset).x = List.replicate s.params.nreg (OpReg.powerOn s.params) := rfl
@[simp] theorem powerOnReset_cmp : (s.powerOnReset).cmp = .eq := rfl
@[simp] theorem powerOnReset_errcode : (s.powerOnReset).errcode = .none := rfl
@[simp] theorem powerOnReset_cmd : (s.powerOnReset).cmd = 0 := rfl
@[simp] theorem powerOnReset_irqStatus : (s.powerOnReset).irqStatus = 0 := rfl
@[simp] theorem powerOnReset_irqEnable : (s.powerOnReset).irqEnable = 0 := rfl
@[simp] theorem powerOnReset_rsel : (s.powerOnReset).rsel = 0 := rfl
@[simp] theorem powerOnReset_widx : (s.powerOnReset).widx = 0 := rfl
@[simp] theorem powerOnReset_pending : (s.powerOnReset).pending = none := rfl
@[simp] theorem powerOnReset_inputs : (s.powerOnReset).inputs = s.inputs := rfl
@[simp] theorem powerOnReset_responses : (s.powerOnReset).responses = s.responses := rfl

/-! `advance` -/

@[simp] theorem advance_params : (s.advance).params = s.params := rfl
@[simp] theorem advance_x : (s.advance).x = s.x := rfl
@[simp] theorem advance_cmp : (s.advance).cmp = s.cmp := rfl
@[simp] theorem advance_errcode : (s.advance).errcode = s.errcode := rfl
@[simp] theorem advance_cmd : (s.advance).cmd = s.cmd := rfl
@[simp] theorem advance_irqStatus : (s.advance).irqStatus = s.irqStatus := rfl
@[simp] theorem advance_irqEnable : (s.advance).irqEnable = s.irqEnable := rfl
@[simp] theorem advance_rsel : (s.advance).rsel = s.rsel := rfl
@[simp] theorem advance_widx : (s.advance).widx = s.widx + 1 := rfl
@[simp] theorem advance_pending : (s.advance).pending = s.pending := rfl
@[simp] theorem advance_inputs : (s.advance).inputs = s.inputs := rfl
@[simp] theorem advance_responses : (s.advance).responses = s.responses := rfl

/-! `blocked` -/

@[simp] theorem blocked_params : (s.blocked).params = s.params := rfl
@[simp] theorem blocked_x : (s.blocked).x = s.x := rfl
@[simp] theorem blocked_cmp : (s.blocked).cmp = s.cmp := rfl
@[simp] theorem blocked_errcode : (s.blocked).errcode = s.errcode := rfl
@[simp] theorem blocked_cmd : (s.blocked).cmd = s.cmd := rfl
@[simp] theorem blocked_irqStatus : (s.blocked).irqStatus = s.irqStatus ||| flagAccess := rfl
@[simp] theorem blocked_irqEnable : (s.blocked).irqEnable = s.irqEnable := rfl
@[simp] theorem blocked_rsel : (s.blocked).rsel = s.rsel := rfl
@[simp] theorem blocked_widx : (s.blocked).widx = s.widx := rfl
@[simp] theorem blocked_pending : (s.blocked).pending = s.pending := rfl
@[simp] theorem blocked_inputs : (s.blocked).inputs = s.inputs := rfl
@[simp] theorem blocked_responses : (s.blocked).responses = s.responses := rfl

/-! `respond` -/

@[simp] theorem respond_params (v : Word) : (s.respond v).params = s.params := rfl
@[simp] theorem respond_x (v : Word) : (s.respond v).x = s.x := rfl
@[simp] theorem respond_cmp (v : Word) : (s.respond v).cmp = s.cmp := rfl
@[simp] theorem respond_errcode (v : Word) : (s.respond v).errcode = s.errcode := rfl
@[simp] theorem respond_cmd (v : Word) : (s.respond v).cmd = s.cmd := rfl
@[simp] theorem respond_irqStatus (v : Word) : (s.respond v).irqStatus = s.irqStatus := rfl
@[simp] theorem respond_irqEnable (v : Word) : (s.respond v).irqEnable = s.irqEnable := rfl
@[simp] theorem respond_rsel (v : Word) : (s.respond v).rsel = s.rsel := rfl
@[simp] theorem respond_widx (v : Word) : (s.respond v).widx = s.widx := rfl
@[simp] theorem respond_pending (v : Word) : (s.respond v).pending = s.pending := rfl
@[simp] theorem respond_inputs (v : Word) : (s.respond v).inputs = s.inputs := rfl
@[simp] theorem respond_responses (v : Word) : (s.respond v).responses = s.responses ++ [v] := rfl

/-! `withCommand` -/

@[simp] theorem withCommand_params (w : Word) : (s.withCommand w).params = s.params := rfl
@[simp] theorem withCommand_x (w : Word) : (s.withCommand w).x = s.x := rfl
@[simp] theorem withCommand_cmp (w : Word) : (s.withCommand w).cmp = s.cmp := rfl
@[simp] theorem withCommand_errcode (w : Word) : (s.withCommand w).errcode = .none := rfl
@[simp] theorem withCommand_cmd (w : Word) : (s.withCommand w).cmd = w := rfl
@[simp] theorem withCommand_irqStatus (w : Word) : (s.withCommand w).irqStatus = s.irqStatus := rfl
@[simp] theorem withCommand_irqEnable (w : Word) : (s.withCommand w).irqEnable = s.irqEnable := rfl
@[simp] theorem withCommand_rsel (w : Word) : (s.withCommand w).rsel = s.rsel := rfl
@[simp] theorem withCommand_widx (w : Word) : (s.withCommand w).widx = s.widx := rfl
@[simp] theorem withCommand_pending (w : Word) : (s.withCommand w).pending = some { work := workOf (decode s.params.nreg w), operands := s.sampleFor (decode s.params.nreg w) } := rfl
@[simp] theorem withCommand_inputs (w : Word) : (s.withCommand w).inputs = .core :: s.inputs := rfl
@[simp] theorem withCommand_responses (w : Word) : (s.withCommand w).responses = s.responses := rfl

end State

end Sys2Proof.Machine
end

