-- ==== Sys2Proof/Laws/Operands.lean ====
section
/-! SUPPORT. The operands of a command in flight, the registers after a write, and the STATUS view. -/

namespace Sys2Proof.Machine

/-- A sampled operand is what the command in flight has (R41). -/
theorem operand_of_pending {s : State} {w : Work} {ops : List Nat} (h : s.pending = some { work := w, operands := ops })
    (k : Nat) (r : RegIdx) : s.operand k r = ops[k]?.getD (s.val r) := by
  simp [State.operand, h]

/-- Operands are a function of the command in flight and the operand registers alone. -/
theorem operand_congr {s t : State} (hp : s.pending = t.pending) (hx : s.x = t.x) (k : Nat) (r : RegIdx) :
    s.operand k r = t.operand k r := by
  simp [State.operand, State.val, State.reg, hp, hx]

theorem busy_iff {s : State} : s.busy = true ↔ s.pending ≠ none := by
  simp [State.busy, Option.isSome_iff_ne_none]

theorem not_busy_iff {s : State} : s.busy = false ↔ s.pending = none := by
  simp [State.busy]

theorem err_iff {s : State} : s.err = true ↔ s.errcode ≠ .none := by simp [State.err]

@[simp] theorem written_value (v : Nat) : (OpReg.written v).value = v := rfl
@[simp] theorem written_undef (v : Nat) : (OpReg.written v).undef = [] := rfl

/-- The register a command wrote reads back what it wrote, if the instance has that register. -/
theorem writeX_reg_same {s : State} {i : RegIdx} (h : i.toNat < s.x.length) (v : Nat) :
    (s.writeX i v).reg i = OpReg.written v := by
  simp [State.reg, h]

/-- Every other register reads as before. -/
theorem writeX_reg_other {s : State} {i j : RegIdx} (h : i ≠ j) (v : Nat) : (s.writeX i v).reg j = s.reg j := by
  have : i.toNat ≠ j.toNat := fun e => h (BitVec.eq_of_toNat_eq e)
  simp [State.reg, List.getD_eq_getElem?_getD, List.getElem?_set_ne this]

end Sys2Proof.Machine
end

