-- ==== Sys2Proof/Laws/Ops.lean ====
section
/-! SUPPORT. One lemma for each shared operation that says everything it can do, and the inversion of `exec`: what a
completing command changes, said once. -/

namespace Sys2Proof.Machine

/-- What a completion step can be (R42): the error code, the registers written and STATUS.CMP, over what every completion
does. -/
structure Completion (i : Instr) (s t : State) : Prop where
  /-- everything a completion does not touch, and the flags it sets -/
  frame : t = { (s.complete t.errcode) with x := t.x, cmp := t.cmp }
  /-- an error writes nothing (R195) -/
  precise : t.errcode ≠ .none → t.x = s.x ∧ t.cmp = s.cmp
  /-- no register is added or lost -/
  length : t.x.length = s.x.length
  /-- only the destinations of the command are written (R22) -/
  others : ∀ j : Nat, (∀ r ∈ dests i, r.toNat ≠ j) → t.x[j]? = s.x[j]?

theorem raise_next {s t : State} {e : ErrCode} (h : s.raise e = .next t) : t = s.complete e := by
  simpa [State.raise] using h.symm

theorem finish_next {s t : State} {rd : RegIdx} {v : Nat} (h : s.finish rd v = .next t) :
    t = (s.writeX rd v).complete .none := by
  simpa [State.finish] using h.symm

/-- `finishFitting` writes the value if it fits, else raises OVERFLOW (R193). -/
theorem finishFitting_eq (s : State) (rd : RegIdx) (v : Nat) :
    s.finishFitting rd v =
      .next (if v < s.params.bound then (s.writeX rd v).complete .none else s.complete .overflow) := by
  unfold State.finishFitting State.raise State.finish
  by_cases h : v < s.params.bound
  · rw [if_neg (by omega), if_pos h]
  · rw [if_pos (by omega), if_neg h]

/-- `finishModular` raises DIVZERO for a zero modulus, else writes the value (R165). -/
theorem finishModular_eq (s : State) (rd : RegIdx) (m v : Nat) :
    s.finishModular rd m v = .next (if m = 0 then s.complete .divzero else (s.writeX rd v).complete .none) := by
  unfold State.finishModular State.raise State.finish
  split <;> rfl

/-- Completing with an error is a completion of any command. -/
theorem completion_error (i : Instr) (s : State) {e : ErrCode} : Completion i s (s.complete e) :=
  ⟨rfl, fun _ => ⟨rfl, rfl⟩, rfl, fun _ _ => rfl⟩

/-- Writing the one destination is a completion of a command that has it. -/
theorem completion_write {i : Instr} (s : State) {rd : RegIdx} (h : rd ∈ dests i) (v : Nat) :
    Completion i s ((s.writeX rd v).complete .none) :=
  ⟨rfl, fun h => absurd rfl h, by simp, fun j hj => by simp [List.getElem?_set_ne (hj rd h)]⟩

theorem completion_finish {i : Instr} {s t : State} {rd : RegIdx} {v : Nat} (hd : rd ∈ dests i)
    (h : s.finish rd v = .next t) : Completion i s t := by
  rw [finish_next h]; exact completion_write s hd v

theorem completion_raise {i : Instr} {s t : State} {e : ErrCode} (h : s.raise e = .next t) : Completion i s t := by
  rw [raise_next h]; exact completion_error i s

theorem completion_finishFitting {i : Instr} {s t : State} {rd : RegIdx} {v : Nat} (hd : rd ∈ dests i)
    (h : s.finishFitting rd v = .next t) : Completion i s t := by
  unfold State.finishFitting at h
  split at h
  · exact completion_raise h
  · exact completion_finish hd h

theorem completion_finishModular {i : Instr} {s t : State} {rd : RegIdx} {m v : Nat} (hd : rd ∈ dests i)
    (h : s.finishModular rd m v = .next t) : Completion i s t := by
  unfold State.finishModular at h
  split at h
  · exact completion_raise h
  · exact completion_finish hd h

/-- The inversion of `exec`: whatever a command does, it is a completion. -/
theorem exec_completion {i : Instr} {s t : State} (h : exec i s = .next t) : Completion i s t := by
  cases i with
  | add rd rs1 rs2 => exact completion_finishFitting (by simp [dests]) h
  | addt rd rs1 rs2 => exact completion_finish (by simp [dests]) h
  | sub rd rs1 rs2 =>
    simp only [exec, execSub] at h
    split at h
    · exact completion_raise h
    · exact completion_finish (by simp [dests]) h
  | shl rd rs1 imm => exact completion_finishFitting (by simp [dests]) h
  | shr rd rs1 imm => exact completion_finish (by simp [dests]) h
  | and rd rs1 rs2 => exact completion_finish (by simp [dests]) h
  | cmp rs1 rs2 =>
    obtain rfl : _ = t := by simpa [exec, execCmp] using h
    exact ⟨rfl, fun h => absurd rfl h, rfl, fun _ _ => rfl⟩
  | mov rd rs1 => exact completion_finish (by simp [dests]) h
  | ldi rd imm => exact completion_finish (by simp [dests]) h
  | mul rd rs1 rs2 => exact completion_finishFitting (by simp [dests]) h
  | mulk rd rs1 rs2 => exact completion_finishFitting (by simp [dests]) h
  | mult rd rs1 rs2 => exact completion_finishFitting (by simp [dests]) h
  | div rd rs1 rs2 rs3 =>
    simp only [exec, execDiv] at h
    split at h
    · exact completion_raise h
    · rw [finish_next h]
      refine ⟨rfl, fun h => absurd rfl h, by simp, fun j hj => ?_⟩
      have h1 := hj rd (by simp [dests])
      have h3 := hj rs3 (by simp [dests])
      simp [List.getElem?_set_ne h1, List.getElem?_set_ne h3]
  | mod rd rs1 rs2 =>
    simp only [exec, execMod] at h
    split at h
    · exact completion_raise h
    · exact completion_finish (by simp [dests]) h
  | modadd rd rs1 rs2 rs3 => exact completion_finishModular (by simp [dests]) h
  | modmul rd rs1 rs2 rs3 => exact completion_finishModular (by simp [dests]) h
  | modmulk rd rs1 rs2 rs3 => exact completion_finishModular (by simp [dests]) h
  | modmult rd rs1 rs2 rs3 => exact completion_finishModular (by simp [dests]) h
  | modexp rd rs1 rs2 rs3 => exact completion_finishModular (by simp [dests]) h

end Sys2Proof.Machine
end

