-- ==== Sys2Proof/Laws/Effect.lean ====
section
/-! SUPPORT. What a command depends on: its effect is a function of the parameters and of its operands alone. -/

namespace Sys2Proof.Machine

/-- What a command does: the registers it writes, the comparison it reports, the code it completes with. -/
structure Effect where
  writes : List (RegIdx × Nat)
  cmp : Option Cmp
  code : ErrCode

/-- The effect applied to a state. -/
def Effect.apply (e : Effect) (s : State) : State :=
  (e.writes.foldl (fun (u : State) w => u.writeX w.1 w.2) { s with cmp := e.cmp.getD s.cmp }).complete e.code

/-- The two states give command i the same parameters and operands. -/
def SameOperands (i : Instr) (s u : State) : Prop :=
  u.params = s.params ∧ ∀ k r, (sources i)[k]? = some r → u.operand k r = s.operand k r

theorem SameOperands.rfl {i : Instr} {s : State} : SameOperands i s s := ⟨Eq.refl _, fun _ _ _ => Eq.refl _⟩

theorem effect_fitting (i : Instr) (s : State) (rd : RegIdx) (f : State → Nat)
    (hf : ∀ u, SameOperands i s u → f u = f s) :
    ∃ e : Effect, ∀ u, SameOperands i s u → u.finishFitting rd (f u) = .next (e.apply u) := by
  by_cases h : f s < s.params.bound
  · exact ⟨⟨[(rd, f s)], none, .none⟩, fun u hu => by rw [finishFitting_eq, hf u hu, hu.1, if_pos h]; rfl⟩
  · exact ⟨⟨[], none, .overflow⟩, fun u hu => by rw [finishFitting_eq, hf u hu, hu.1, if_neg h]; rfl⟩

theorem effect_finish (i : Instr) (s : State) (rd : RegIdx) (f : State → Nat)
    (hf : ∀ u, SameOperands i s u → f u = f s) :
    ∃ e : Effect, ∀ u, SameOperands i s u → u.finish rd (f u) = .next (e.apply u) :=
  ⟨⟨[(rd, f s)], none, .none⟩, fun u hu => by rw [hf u hu]; rfl⟩

theorem effect_modular (i : Instr) (s : State) (rd : RegIdx) (m f : State → Nat)
    (hf : ∀ u, SameOperands i s u → f u = f s ∧ m u = m s) :
    ∃ e : Effect, ∀ u, SameOperands i s u → u.finishModular rd (m u) (f u) = .next (e.apply u) := by
  by_cases h : m s = 0
  · exact ⟨⟨[], none, .divzero⟩, fun u hu => by rw [finishModular_eq, (hf u hu).2, if_pos h]; rfl⟩
  · exact ⟨⟨[(rd, f s)], none, .none⟩, fun u hu => by
      rw [finishModular_eq, (hf u hu).2, (hf u hu).1, if_neg h]; rfl⟩

/-- A command's effect is a function of the parameters and of its operands alone (R41, R101). -/
theorem exec_effect (i : Instr) (s : State) :
    ∃ e : Effect, ∀ u, SameOperands i s u → exec i u = .next (e.apply u) := by
  cases i with
  | add rd rs1 rs2 => exact effect_fitting _ s rd _ fun u hu => by rw [hu.2 0 rs1 rfl, hu.2 1 rs2 rfl]
  | addt rd rs1 rs2 => exact effect_finish _ s rd _ fun u hu => by simp only [hu.2 0 rs1 rfl, hu.2 1 rs2 rfl]
  | sub rd rs1 rs2 =>
    by_cases h : s.operand 0 rs1 < s.operand 1 rs2
    · exact ⟨⟨[], none, .underflow⟩, fun u hu => by
        simp only [exec, execSub, hu.2 0 rs1 rfl, hu.2 1 rs2 rfl, if_pos h]; rfl⟩
    · exact ⟨⟨[(rd, complementSub (s.operand 0 rs1) (s.operand 1 rs2))], none, .none⟩, fun u hu => by
        simp only [exec, execSub, hu.2 0 rs1 rfl, hu.2 1 rs2 rfl, if_neg h]; rfl⟩
  | shl rd rs1 imm => exact effect_fitting _ s rd _ fun u hu => by rw [hu.2 0 rs1 rfl]
  | shr rd rs1 imm => exact effect_finish _ s rd _ fun u hu => by rw [hu.2 0 rs1 rfl]
  | and rd rs1 rs2 => exact effect_finish _ s rd _ fun u hu => by rw [hu.2 0 rs1 rfl, hu.2 1 rs2 rfl]
  | cmp rs1 rs2 =>
    exact ⟨⟨[], some (magCompare (s.operand 0 rs1) (s.operand 1 rs2)), .none⟩, fun u hu => by
      simp only [exec, execCmp, hu.2 0 rs1 rfl, hu.2 1 rs2 rfl]; rfl⟩
  | mov rd rs1 => exact effect_finish _ s rd _ fun u hu => by rw [hu.2 0 rs1 rfl]
  | ldi rd imm => exact effect_finish _ s rd _ fun u hu => Eq.refl _
  | mul rd rs1 rs2 => exact effect_fitting _ s rd _ fun u hu => by rw [hu.2 0 rs1 rfl, hu.2 1 rs2 rfl]
  | mulk rd rs1 rs2 => exact effect_fitting _ s rd _ fun u hu => by rw [hu.2 0 rs1 rfl, hu.2 1 rs2 rfl]
  | mult rd rs1 rs2 => exact effect_fitting _ s rd _ fun u hu => by rw [hu.2 0 rs1 rfl, hu.2 1 rs2 rfl]
  | div rd rs1 rs2 rs3 =>
    by_cases h : s.operand 1 rs2 = 0
    · exact ⟨⟨[], none, .divzero⟩, fun u hu => by
        simp only [exec, execDiv, hu.2 1 rs2 rfl, if_pos h]; rfl⟩
    · let qr := quadDiv (s.operand 0 rs1) (s.operand 1 rs2)
      exact ⟨⟨[(rd, qr.1), (rs3, qr.2)], none, .none⟩, fun u hu => by
        simp only [exec, execDiv, hu.2 0 rs1 rfl, hu.2 1 rs2 rfl, if_neg h]; rfl⟩
  | mod rd rs1 rs2 =>
    by_cases h : s.operand 1 rs2 = 0
    · exact ⟨⟨[], none, .divzero⟩, fun u hu => by
        simp only [exec, execMod, hu.2 1 rs2 rfl, if_pos h]; rfl⟩
    · exact ⟨⟨[(rd, reduce (s.operand 0 rs1) (s.operand 1 rs2))], none, .none⟩, fun u hu => by
        simp only [exec, execMod, hu.2 0 rs1 rfl, hu.2 1 rs2 rfl, if_neg h]; rfl⟩
  | modadd rd rs1 rs2 rs3 =>
    exact effect_modular _ s rd _ _ fun u hu => by
      rw [hu.2 0 rs1 rfl, hu.2 1 rs2 rfl, hu.2 2 rs3 rfl]; exact ⟨Eq.refl _, Eq.refl _⟩
  | modmul rd rs1 rs2 rs3 =>
    exact effect_modular _ s rd _ _ fun u hu => by
      rw [hu.2 0 rs1 rfl, hu.2 1 rs2 rfl, hu.2 2 rs3 rfl]; exact ⟨Eq.refl _, Eq.refl _⟩
  | modmulk rd rs1 rs2 rs3 =>
    exact effect_modular _ s rd _ _ fun u hu => by
      rw [hu.2 0 rs1 rfl, hu.2 1 rs2 rfl, hu.2 2 rs3 rfl]; exact ⟨Eq.refl _, Eq.refl _⟩
  | modmult rd rs1 rs2 rs3 =>
    exact effect_modular _ s rd _ _ fun u hu => by
      rw [hu.2 0 rs1 rfl, hu.2 1 rs2 rfl, hu.2 2 rs3 rfl]; exact ⟨Eq.refl _, Eq.refl _⟩
  | modexp rd rs1 rs2 rs3 =>
    exact effect_modular _ s rd _ _ fun u hu => by
      rw [hu.2 0 rs1 rfl, hu.2 1 rs2 rfl, hu.2 2 rs3 rfl]; exact ⟨Eq.refl _, Eq.refl _⟩

/-- The writes of an effect change the operand registers alone. -/
theorem foldl_writeX (ws : List (RegIdx × Nat)) (s : State) :
    ws.foldl (fun (u : State) w => u.writeX w.1 w.2) s =
      { s with x := ws.foldl (fun x w => x.set w.1.toNat (OpReg.written w.2)) s.x } := by
  induction ws generalizing s with
  | nil => rfl
  | cons w ws ih => exact ih (s.writeX w.1 w.2)

/-- An effect, field by field. -/
theorem Effect.apply_eq (e : Effect) (s : State) : e.apply s =
    { s with
      x := e.writes.foldl (fun x w => x.set w.1.toNat (OpReg.written w.2)) s.x
      cmp := e.cmp.getD s.cmp
      errcode := e.code
      irqStatus := s.irqStatus ||| completionFlags e.code
      pending := none } := by
  rw [Effect.apply, foldl_writeX]; rfl

end Sys2Proof.Machine
end

