-- ==== Sys2Proof/Laws/Words.lean ====
section
/-! SUPPORT. The data words of a value (R54) and the replacement of one of them (R56). -/

namespace Sys2Proof.Machine

/-- A data word as a number. -/
theorem wordOf_toNat (v k : Nat) : (wordOf v k).toNat = v / 2 ^ (32 * k) % 2 ^ 32 := by
  simp [wordOf, Nat.shiftRight_eq_div_pow]

/-- Bit j of word k is bit 32k + j (R54). -/
theorem wordOf_bit (v k j : Nat) : (wordOf v k).getLsbD j = (decide (j < 32) && v.testBit (32 * k + j)) := by
  simp [wordOf, BitVec.getLsbD_ofNat]

/-- A value is what lies above word k, the word, and what lies below it. -/
theorem value_split (v k : Nat) :
    v = (v / 2 ^ (32 * k) / 2 ^ 32 * 2 ^ 32 + (wordOf v k).toNat) * 2 ^ (32 * k) + v % 2 ^ (32 * k) := by
  rw [wordOf_toNat, Nat.div_add_mod', Nat.div_add_mod']

/-- What replacing word k leaves: the same above and below, the new word between (R56). -/
theorem setWord_value (r : OpReg) (k : Nat) (w : Word) : (r.setWord k w).value =
    (r.value / 2 ^ (32 * k) / 2 ^ 32 * 2 ^ 32 + w.toNat) * 2 ^ (32 * k) + r.value % 2 ^ (32 * k) := by
  have h := value_split r.value k
  simp only [OpReg.setWord]
  rw [add_mul] at h ⊢
  omega

/-- The value bit by bit after word k is replaced. -/
theorem setWord_testBit (r : OpReg) (k : Nat) (w : Word) (j : Nat) : (r.setWord k w).value.testBit j =
    if 32 * k ≤ j ∧ j < 32 * k + 32 then w.getLsbD (j - 32 * k) else r.value.testBit j := by
  rw [setWord_value, Nat.mul_comm _ (2 ^ (32 * k)), Nat.testBit_two_pow_mul_add _ (Nat.mod_lt _ (by positivity))]
  split
  · rw [if_neg (by omega), Nat.testBit_mod_two_pow]; simp [*]
  · rw [Nat.mul_comm _ (2 ^ 32), Nat.testBit_two_pow_mul_add _ w.isLt]
    split
    · rw [if_pos (by omega)]; rfl
    · rw [if_neg (by omega), ← Nat.shiftRight_eq_div_pow, ← Nat.shiftRight_eq_div_pow, Nat.testBit_shiftRight,
        Nat.testBit_shiftRight]
      congr 1; omega

/-- The replaced word reads back (R56). -/
theorem wordOf_setWord_same (r : OpReg) (k : Nat) (w : Word) : wordOf (r.setWord k w).value k = w := by
  apply BitVec.eq_of_getLsbD_eq; intro i hi
  rw [wordOf_bit, setWord_testBit, if_pos (by omega)]; simp [hi]

/-- Every other word is left (R56). -/
theorem wordOf_setWord_other (r : OpReg) {k j : Nat} (w : Word) (h : j ≠ k) :
    wordOf (r.setWord k w).value j = wordOf r.value j := by
  apply BitVec.eq_of_getLsbD_eq; intro i hi
  rw [wordOf_bit, wordOf_bit, setWord_testBit]
  have : ¬(32 * k ≤ 32 * j + i ∧ 32 * j + i < 32 * k + 32) := by omega
  rw [if_neg this]

/-- A register that fits still fits when a word it has is replaced (R20). -/
theorem setWord_lt {r : OpReg} {k n : Nat} (w : Word) (hk : k < n) (h : r.value < 2 ^ (32 * n)) :
    (r.setWord k w).value < 2 ^ (32 * n) := by
  apply Nat.lt_pow_two_of_testBit
  intro i hi
  rw [setWord_testBit, if_neg (by omega)]
  exact Nat.testBit_lt_two_pow (h.trans_le (Nat.pow_le_pow_right (by omega) hi))

/-- The undefined words after word k is replaced (R24). -/
theorem mem_setWord_undef (r : OpReg) (k : Nat) (w : Word) (j : Nat) :
    j ∈ (r.setWord k w).undef ↔ j ∈ r.undef ∧ j ≠ k := by simp [OpReg.setWord]

/-- Two values that fit and have the same words are the same. -/
theorem eq_of_words {v w n : Nat} (hv : v < 2 ^ (32 * n)) (hw : w < 2 ^ (32 * n))
    (h : ∀ k < n, wordOf v k = wordOf w k) : v = w := by
  apply Nat.eq_of_testBit_eq
  intro i
  by_cases hi : i < 32 * n
  · have := congrArg (BitVec.getLsbD · (i % 32)) (h (i / 32) (by omega))
    simp only [wordOf_bit] at this
    have e : 32 * (i / 32) + i % 32 = i := by omega
    simpa [e, Nat.mod_lt] using this
  · rw [Nat.testBit_lt_two_pow (hv.trans_le (Nat.pow_le_pow_right (by omega) (by omega))),
      Nat.testBit_lt_two_pow (hw.trans_le (Nat.pow_le_pow_right (by omega) (by omega)))]

end Sys2Proof.Machine
end

