-- ==== Sys2Proof/Laws/Step.lean ====
section
/-! SUPPORT. One step, said once: what it is for each kind of next input, which register of the window an access reaches,
and what each kind of step keeps. -/

namespace Sys2Proof.Machine

/-! ## The four kinds of step -/

theorem step_of_nil {s : State} (h : s.inputs = []) : step s = coreTurn s := by simp [step, h]

theorem step_of_cons {s : State} {e : Input} {rest : List Input} (h : s.inputs = e :: rest) :
    step s = perform e { s with inputs := rest } := by simp [step, h]

/-- An Idle core does no work (R209). -/
theorem coreTurn_idle {s : State} (h : s.pending = none) : coreTurn s = .next s := by simp [coreTurn, h]

theorem coreTurn_illegal {s : State} {ops : List Nat} (h : s.pending = some { work := .illegal, operands := ops }) :
    coreTurn s = .next (s.complete .illegal) := by simp [coreTurn, h, State.raise]

theorem coreTurn_command {s : State} {i : Instr} {ops : List Nat}
    (h : s.pending = some { work := .command i, operands := ops }) : coreTurn s = exec i s := by simp [coreTurn, h]

/-- What a completion by the core's turn is: an ILLEGAL one with code 1, or one of the command in flight. -/
theorem coreTurn_busy {s t : State} (hp : s.pending ≠ none) (h : coreTurn s = .next t) :
    ∃ i, Completion i s t := by
  obtain ⟨⟨w, ops⟩, hw⟩ := Option.ne_none_iff_exists'.1 hp
  cases w with
  | illegal =>
    rw [coreTurn_illegal hw] at h
    obtain rfl : _ = t := by simpa using h
    exact ⟨.ldi 0 0, completion_error _ s⟩
  | command i => exact ⟨i, exec_completion ((coreTurn_command hw).symm.trans h)⟩

/-! ## What completes -/

theorem exec_next (i : Instr) (s : State) : ∃ t, exec i s = .next t := by
  cases i <;> simp only [exec, execAdd, execAddt, execSub, execShl, execShr, execAnd, execCmp, execMov, execLdi, execMul,
    execMulk, execMult, execDiv, execMod, execModadd, execModmul, execModmulk, execModmult, execModexp, finishFitting_eq,
    finishModular_eq, State.finish, State.raise] <;> first | exact ⟨_, rfl⟩ | (split <;> exact ⟨_, rfl⟩)

/-- The core's turn always answers a next state. -/
theorem coreTurn_next (s : State) : ∃ t, coreTurn s = .next t := by
  rcases hp : s.pending with _ | ⟨w, ops⟩
  · exact ⟨_, coreTurn_idle hp⟩
  · cases w with
    | illegal => exact ⟨_, coreTurn_illegal hp⟩
    | command i => rw [coreTurn_command hp]; exact exec_next i s

/-! ## Which register an access reaches -/

theorem inWindow_offset (s : State) (r : WinReg) : s.inWindow (s.params.base + r.offset) = true := by
  cases r <;> simp [State.inWindow, WinReg.offset]

theorem winReg_offset (s : State) (r : WinReg) : s.winReg (s.params.base + r.offset) = r := by
  simp only [State.winReg, Nat.add_sub_cancel_left]
  cases r <;> rfl

theorem hostTurn_read {s : State} {addr : Nat} {size : Size} (h : s.inWindow addr = true) :
    hostTurn (.read addr size) s =
      .next ((s.readWin (s.winReg addr)).2.respond (s.readWin (s.winReg addr)).1) := by
  simp [hostTurn, h]

theorem hostTurn_write {s : State} {addr : Nat} {size : Size} {w : Word} (h : s.inWindow addr = true) :
    hostTurn (.write addr size w) s = .next (s.writeWin w (s.winReg addr)) := by
  simp [hostTurn, h]

/-- A host read of a register of the window, by its offset. -/
theorem step_hostRead {s : State} {r : WinReg} {rest : List Input} (h : s.inputs = hostRead s.params r :: rest) :
    step s = .next ((State.readWin { s with inputs := rest } r).2.respond
      (State.readWin { s with inputs := rest } r).1) := by
  rw [step_of_cons h]
  have hw := inWindow_offset { s with inputs := rest } r
  have hr := winReg_offset { s with inputs := rest } r
  exact (hostTurn_read (size := .word) hw).trans (by rw [hr])

/-- A host write of a register of the window, by its offset. -/
theorem step_hostWrite {s : State} {r : WinReg} {w : Word} {rest : List Input}
    (h : s.inputs = hostWrite s.params r w :: rest) :
    step s = .next (State.writeWin { s with inputs := rest } w r) := by
  rw [step_of_cons h]
  have hw := inWindow_offset { s with inputs := rest } r
  have hr := winReg_offset { s with inputs := rest } r
  exact (hostTurn_write (size := .word) hw).trans (by rw [hr])

/-- A CMD write of a legal word by an Idle core puts its command in flight, with its operands sampled (R40, R41). -/
theorem step_issue {s : State} {w : Word} {i : Instr} {rest : List Input} (hp : s.pending = none)
    (hd : decode s.params.nreg w = .legal i) (hi : s.inputs = hostWrite s.params .cmd w :: rest) :
    ∃ t, step s = .next t ∧ t.pending = some { work := .command i, operands := (sources i).map s.val } := by
  refine ⟨_, step_hostWrite hi, ?_⟩
  have hb : State.busy { s with inputs := rest } = false := not_busy_iff.2 hp
  simp only [State.writeWin, State.issue, hb, Bool.false_eq_true, if_false, State.accept_pending]
  rw [show decode (State.params { s with inputs := rest }).nreg w = .legal i from hd]
  rfl

/-! ## The inversion of a step -/

/-- Everything a step that answers a next state can be. -/
inductive StepCase (s t : State) : Prop where
  | core (rest : List Input) (hi : s.inputs = [] ∧ rest = [] ∨ s.inputs = .core :: rest)
      (h : coreTurn { s with inputs := rest } = .next t)
  | reset (rest : List Input) (hi : s.inputs = .resetPin :: rest) (h : t = State.powerOnReset { s with inputs := rest })
  | read (addr : Nat) (size : Size) (rest : List Input) (hi : s.inputs = .host (.read addr size) :: rest)
      (hw : s.inWindow addr = true)
      (h : t = (State.readWin { s with inputs := rest } (s.winReg addr)).2.respond
        (State.readWin { s with inputs := rest } (s.winReg addr)).1)
  | write (addr : Nat) (size : Size) (w : Word) (rest : List Input) (hi : s.inputs = .host (.write addr size w) :: rest)
      (hw : s.inWindow addr = true) (h : t = State.writeWin { s with inputs := rest } w (s.winReg addr))

theorem step_cases {s t : State} (h : step s = .next t) : StepCase s t := by
  rcases hi : s.inputs with _ | ⟨e, rest⟩
  · refine .core [] (.inl ⟨hi, rfl⟩) ?_
    rw [step_of_nil hi] at h
    rw [← hi]; exact h
  · rw [step_of_cons hi] at h
    cases e with
    | core => exact .core rest (.inr hi) h
    | resetPin => exact .reset rest hi (by simpa [perform] using h.symm)
    | host a =>
      cases a with
      | read addr size =>
        by_cases hw : s.inWindow addr = true
        · exact .read addr size rest hi hw
            (Host.Outcome.next.inj (h.symm.trans (hostTurn_read (s := { s with inputs := rest }) (size := size) hw)))
        · simp only [perform, hostTurn] at h
          rw [if_neg (show ¬(State.inWindow { s with inputs := rest } addr = true) from hw)] at h; simp at h
      | write addr size w =>
        by_cases hw : s.inWindow addr = true
        · exact .write addr size w rest hi hw
            (Host.Outcome.next.inj (h.symm.trans (hostTurn_write (s := { s with inputs := rest }) (size := size) hw)))
        · simp only [perform, hostTurn] at h
          rw [if_neg (show ¬(State.inWindow { s with inputs := rest } addr = true) from hw)] at h; simp at h

/-! ## What a read keeps -/

/-- A host read changes WIDX and the event flags at most (R57, R59). -/
theorem readWin_frame (s : State) (r : WinReg) :
    (s.readWin r).2 = { s with widx := (s.readWin r).2.widx, irqStatus := (s.readWin r).2.irqStatus } := by
  cases r <;> simp only [State.readWin, State.readData, State.readNbits] <;>
    first | rfl | (split <;> rfl)

/-- Only a DATA or NBITS read while Busy sets a flag, ACCESS (R59). -/
theorem readWin_irqStatus (s : State) (r : WinReg) : (s.readWin r).2.irqStatus =
    if s.busy = true ∧ (r = .data ∨ r = .nbits) then s.irqStatus ||| flagAccess else s.irqStatus := by
  cases r <;> cases hb : s.busy <;> simp [State.readWin, State.readData, State.readNbits, hb]

/-- Only a DATA read while Idle advances WIDX (R57). -/
theorem readWin_widx (s : State) (r : WinReg) : (s.readWin r).2.widx =
    if s.busy = false ∧ r = .data then s.widx + 1 else s.widx := by
  cases r <;> cases hb : s.busy <;> simp [State.readWin, State.readData, State.readNbits, hb]

/-! ## What a step keeps -/

/-- No step changes the parameters (R8). -/
theorem completion_params {i : Instr} {s t : State} (h : Completion i s t) : t.params = s.params := by rw [h.frame]; rfl

theorem coreTurn_params {s t : State} (h : coreTurn s = .next t) : t.params = s.params := by
  by_cases hp : s.pending = none
  · rw [coreTurn_idle hp] at h; simp at h; rw [h]
  · obtain ⟨i, c⟩ := coreTurn_busy hp h; exact completion_params c

theorem writeWin_params (s : State) (w : Word) (r : WinReg) : (s.writeWin w r).params = s.params := by
  cases r <;> simp [State.writeWin, State.writeCtrl, State.issue, State.writeData] <;> (repeat' split) <;> rfl

theorem step_params {s t : State} (h : step s = .next t) : t.params = s.params := by
  cases step_cases h with
  | core rest hi h => have := coreTurn_params h; exact this
  | reset rest hi h => subst h; rfl
  | read a z rest hi hw h => subst h; simp; rw [readWin_frame]
  | write a z w rest hi hw h => subst h; exact writeWin_params _ _ _

/-! ## What a host write changes -/

/-- A host write changes an operand register through DATA while Idle only (R56). -/
theorem writeWin_x (s : State) (w : Word) (r : WinReg) :
    (s.writeWin w r).x = s.x ∨ (r = .data ∧ s.busy = false) := by
  cases r <;> simp only [State.writeWin, State.writeCtrl, State.issue, State.writeData] <;> (repeat' split) <;> simp_all

/-- A host write changes STATUS.CMP by a soft reset only (R26). -/
theorem writeWin_cmp (s : State) (w : Word) (r : WinReg) :
    (s.writeWin w r).cmp = s.cmp ∨ (r = .ctrl ∧ w.getLsbD 0 = true ∧ (s.writeWin w r).cmp = .eq) := by
  cases r <;> simp only [State.writeWin, State.writeCtrl, State.issue, State.writeData] <;> (repeat' split) <;> simp_all

/-- A host write changes ERRCODE by a soft reset or an acceptance only (R27). -/
theorem writeWin_errcode (s : State) (w : Word) (r : WinReg) :
    (s.writeWin w r).errcode = s.errcode ∨ (r = .ctrl ∧ w.getLsbD 0 = true ∧ (s.writeWin w r).errcode = .none) ∨
      (r = .cmd ∧ s.busy = false ∧ (s.writeWin w r).errcode = .none) := by
  cases r <;> simp only [State.writeWin, State.writeCtrl, State.issue, State.writeData] <;> (repeat' split) <;> simp_all

theorem completes_of {s : State} {rest : List Input} (hi : s.inputs = [] ∧ rest = [] ∨ s.inputs = .core :: rest)
    (hp : s.pending ≠ none) : s.completes := by
  refine ⟨hp, ?_⟩; rcases hi with h | h
  · exact .inl h.1
  · right; simp [h]

/-- The next step is a write of w' to r exactly if its access is. -/
theorem writes_iff {s : State} {a : Nat} {z : Size} {w w' : Word} {rest : List Input} {r : WinReg}
    (hi : s.inputs = .host (.write a z w) :: rest) (hw : s.inWindow a = true) :
    s.writes r w' ↔ s.winReg a = r ∧ w = w' := by
  constructor
  · rintro ⟨a', z', rs', h, h2, h3⟩; rw [hi] at h; simp at h; obtain ⟨⟨rfl, rfl, rfl⟩, rfl⟩ := h; exact ⟨h3, rfl⟩
  · rintro ⟨h, rfl⟩; exact ⟨a, z, rest, hi, hw, h⟩

/-- The next step is a read of r exactly if its access is. -/
theorem reads_iff {s : State} {a : Nat} {z : Size} {rest : List Input} {r : WinReg}
    (hi : s.inputs = .host (.read a z) :: rest) (hw : s.inWindow a = true) :
    s.reads r ↔ s.winReg a = r := by
  constructor
  · rintro ⟨a', z', rs', h, h2, h3⟩; rw [hi] at h; simp at h; obtain ⟨⟨rfl, rfl⟩, rfl⟩ := h; exact h3
  · rintro h; exact ⟨a, z, rest, hi, hw, h⟩

/-- A host access while a command runs leaves the command, its result's registers and its status alone (R59, R60). -/
theorem step_access_busy {s : State} {a : Access} {rest : List Input} (hp : s.pending ≠ none) (ha : a.ordinary s)
    (hi : s.inputs = .host a :: rest) :
    ∃ t, step s = .next t ∧ t.pending = s.pending ∧ t.x = s.x ∧ t.cmp = s.cmp ∧ t.errcode = s.errcode ∧ t.cmd = s.cmd ∧
      t.inputs = rest ∧ t.params = s.params := by
  have hb : State.busy { s with inputs := rest } = true := busy_iff.2 hp
  cases a with
  | read addr z =>
    refine ⟨_, (step_of_cons hi).trans (hostTurn_read (s := { s with inputs := rest }) (size := z) ha), ?_⟩
    rw [readWin_frame]; exact ⟨rfl, rfl, rfl, rfl, rfl, rfl, rfl⟩
  | write addr z w =>
    refine ⟨_, (step_of_cons hi).trans (hostTurn_write (s := { s with inputs := rest }) (size := z) ha.1), ?_⟩
    have hc := ha.2
    rw [show State.winReg { s with inputs := rest } addr = s.winReg addr from rfl]
    generalize s.winReg addr = r at hc
    cases r <;> simp [State.writeWin, State.issue, hb, State.writeData, State.writeCtrl] 
    simp at hc
    simp [hc]

end Sys2Proof.Machine
end

