-- ==== Sys2Proof/Laws/Invariant.lean ====
section
/-! SUPPORT. The parts of the invariant: rising lists, registers and operands that fit, and the completions that keep it. -/

namespace Sys2Proof.Machine

/-- The rest of a rising list rises. -/
theorem rising_tail {a l} (h : rising (a :: l) = true) : rising l = true := by
  cases l <;> simp_all [rising]

/-- The head of a rising list is its least. -/
theorem rising_all {a l} (h : rising (a :: l) = true) : ∀ b ∈ l, a < b := by
  induction l generalizing a with
  | nil => simp
  | cons c l ih =>
    simp [rising] at h
    intro b hb
    rcases List.mem_cons.1 hb with rfl | hb
    · exact h.1
    · exact h.1.trans (ih h.2 b hb)

/-- A lesser head keeps a list rising. -/
theorem rising_cons {a l} (h1 : ∀ b ∈ l, a < b) (h2 : rising l = true) : rising (a :: l) = true := by
  cases l with
  | nil => rfl
  | cons c l => simp [rising, h2]; exact h1 c (by simp)

/-- Dropping entries keeps a list rising. -/
theorem rising_filter (p : Nat → Bool) (l : List Nat) (h : rising l = true) : rising (l.filter p) = true := by
  induction l with
  | nil => rfl
  | cons a l ih =>
    rw [List.filter_cons]
    split
    · exact rising_cons (fun b hb => rising_all h b (List.mem_filter.1 hb).1) (ih (rising_tail h))
    · exact ih (rising_tail h)

/-- The indexes below n rise. -/
theorem rising_range (n : Nat) : rising (List.range n) = true := by
  have : ∀ n k, rising (List.range' k n) = true := by
    intro n; induction n with
    | zero => intro k; rfl
    | succ n ih =>
      intro k; rw [List.range'_succ]
      exact rising_cons (fun b hb => by rw [List.mem_range'_1] at hb; omega) (ih _)
  rw [List.range_eq_range']; exact this _ _

/-- An operand register right after power-on is legal. -/
theorem OpReg.powerOn_wf (p : Params) : (OpReg.powerOn p).wf p :=
  ⟨by simp [OpReg.powerOn, Params.bound], rising_range _, by simp [OpReg.powerOn]⟩

/-- Every operand register fits (R20). -/
theorem val_lt {s : State} (h : s.Inv) (r : RegIdx) : s.val r < s.params.bound := by
  unfold State.val State.reg
  rw [List.getD_eq_getElem?_getD]
  cases hx : s.x[r.toNat]? with
  | none => simp [Params.bound]
  | some v => exact (h.2.2.1 v (List.mem_of_getElem? hx)).1

/-- Every operand fits (R20, R41). -/
theorem operand_lt {s : State} (h : s.Inv) (k : Nat) (r : RegIdx) : s.operand k r < s.params.bound := by
  unfold State.operand
  cases hp : s.pending with
  | none => exact val_lt h r
  | some p =>
    simp only
    cases ho : p.operands[k]? with
    | none => exact val_lt h r
    | some v =>
      have := (h.2.2.2 p (by simp [hp])).2.1
      have hm := List.mem_of_getElem? ho
      rw [this] at hm
      cases hd : decode s.params.nreg s.cmd with
      | illegal w => rw [hd] at hm; simp [State.sampleFor] at hm
      | legal i => 
        rw [hd] at hm; simp [State.sampleFor, State.sample] at hm
        obtain ⟨r', _, rfl⟩ := hm; exact val_lt h r'

/-- A completion without a write keeps the invariant. -/
theorem inv_complete {s : State} (h : s.Inv) (e : ErrCode) : (s.complete e).Inv :=
  ⟨h.1, h.2.1, h.2.2.1, by simp [State.pendingOk]⟩

/-- A completion that writes a value that fits keeps the invariant. -/
theorem inv_write {s : State} (h : s.Inv) (rd : RegIdx) {v : Nat} (hv : v < s.params.bound) (e : ErrCode) :
    ((s.writeX rd v).complete e).Inv := by
  refine ⟨h.1, by simp [h.2.1], fun r hr => ?_, by simp [State.pendingOk]⟩
  rcases List.mem_or_eq_of_mem_set hr with hr | hr
  · exact h.2.2.1 r hr
  · rw [hr]; exact ⟨hv, rfl, rfl⟩

end Sys2Proof.Machine
end

