-- ==== Sys2Proof/Laws/PerInstr.lean ====
section
/-! SUPPORT. Per instruction: a well-formed command names only operand registers the instance has (R80), as sources and as
destinations (R22). -/

namespace Sys2Proof.Laws.RegBounds

open Sys2Proof Sys2Proof.Machine

/-- Every source and destination register of a well-formed command exists. -/
def Statement (i : Instr) : Prop :=
  ∀ nreg : Nat, i.wf nreg = true → (∀ r ∈ sources i, r.toNat < nreg) ∧ ∀ r ∈ dests i, r.toNat < nreg

theorem add (rd rs1 rs2 : RegIdx) : Statement (.add rd rs1 rs2) := by
  intro nreg h
  simp_all [Instr.wf, Instr.indexesOk, Instr.regFields, sources, dests]

theorem addt (rd rs1 rs2 : RegIdx) : Statement (.addt rd rs1 rs2) := by
  intro nreg h
  simp_all [Instr.wf, Instr.indexesOk, Instr.regFields, sources, dests]

theorem sub (rd rs1 rs2 : RegIdx) : Statement (.sub rd rs1 rs2) := by
  intro nreg h
  simp_all [Instr.wf, Instr.indexesOk, Instr.regFields, sources, dests]

theorem shl (rd rs1 : RegIdx) (imm : Imm16) : Statement (.shl rd rs1 imm) := by
  intro nreg h
  simp_all [Instr.wf, Instr.indexesOk, Instr.regFields, sources, dests]

theorem shr (rd rs1 : RegIdx) (imm : Imm16) : Statement (.shr rd rs1 imm) := by
  intro nreg h
  simp_all [Instr.wf, Instr.indexesOk, Instr.regFields, sources, dests]

theorem and (rd rs1 rs2 : RegIdx) : Statement (.and rd rs1 rs2) := by
  intro nreg h
  simp_all [Instr.wf, Instr.indexesOk, Instr.regFields, sources, dests]

theorem cmp (rs1 rs2 : RegIdx) : Statement (.cmp rs1 rs2) := by
  intro nreg h
  simp_all [Instr.wf, Instr.indexesOk, Instr.regFields, sources, dests]

theorem mov (rd rs1 : RegIdx) : Statement (.mov rd rs1) := by
  intro nreg h
  simp_all [Instr.wf, Instr.indexesOk, Instr.regFields, sources, dests]

theorem ldi (rd : RegIdx) (imm : Imm16) : Statement (.ldi rd imm) := by
  intro nreg h
  simp_all [Instr.wf, Instr.indexesOk, Instr.regFields, sources, dests]

theorem mul (rd rs1 rs2 : RegIdx) : Statement (.mul rd rs1 rs2) := by
  intro nreg h
  simp_all [Instr.wf, Instr.indexesOk, Instr.regFields, sources, dests]

theorem mulk (rd rs1 rs2 : RegIdx) : Statement (.mulk rd rs1 rs2) := by
  intro nreg h
  simp_all [Instr.wf, Instr.indexesOk, Instr.regFields, sources, dests]

theorem mult (rd rs1 rs2 : RegIdx) : Statement (.mult rd rs1 rs2) := by
  intro nreg h
  simp_all [Instr.wf, Instr.indexesOk, Instr.regFields, sources, dests]

theorem div (rd rs1 rs2 rs3 : RegIdx) : Statement (.div rd rs1 rs2 rs3) := by
  intro nreg h
  simp_all [Instr.wf, Instr.indexesOk, Instr.regFields, sources, dests]

theorem mod (rd rs1 rs2 : RegIdx) : Statement (.mod rd rs1 rs2) := by
  intro nreg h
  simp_all [Instr.wf, Instr.indexesOk, Instr.regFields, sources, dests]

theorem modadd (rd rs1 rs2 rs3 : RegIdx) : Statement (.modadd rd rs1 rs2 rs3) := by
  intro nreg h
  simp_all [Instr.wf, Instr.indexesOk, Instr.regFields, sources, dests]

theorem modmul (rd rs1 rs2 rs3 : RegIdx) : Statement (.modmul rd rs1 rs2 rs3) := by
  intro nreg h
  simp_all [Instr.wf, Instr.indexesOk, Instr.regFields, sources, dests]

theorem modmulk (rd rs1 rs2 rs3 : RegIdx) : Statement (.modmulk rd rs1 rs2 rs3) := by
  intro nreg h
  simp_all [Instr.wf, Instr.indexesOk, Instr.regFields, sources, dests]

theorem modmult (rd rs1 rs2 rs3 : RegIdx) : Statement (.modmult rd rs1 rs2 rs3) := by
  intro nreg h
  simp_all [Instr.wf, Instr.indexesOk, Instr.regFields, sources, dests]

theorem modexp (rd rs1 rs2 rs3 : RegIdx) : Statement (.modexp rd rs1 rs2 rs3) := by
  intro nreg h
  simp_all [Instr.wf, Instr.indexesOk, Instr.regFields, sources, dests]

end Sys2Proof.Laws.RegBounds
end

