-- ==== Sys2Proof/Laws/Strict.lean ====
section
/-! SUPPORT. The strict machine, said once: where it refuses, where it faults, and that it is `step` everywhere else. -/

namespace Sys2Proof.Machine.Safety

variable {s : State}

/-- The next access, if it is a read of the window. -/
theorem nextAccess_read {addr : Nat} {size : Size} {rest : List Input}
    (hi : s.inputs = .host (.read addr size) :: rest) (hw : s.inWindow addr = true) :
    nextAccess s = some (.read addr size) := by simp [nextAccess, hi, hw]

/-- The next access, if it is a write of the window. -/
theorem nextAccess_write {addr : Nat} {size : Size} {w : Word} {rest : List Input}
    (hi : s.inputs = .host (.write addr size w) :: rest) (hw : s.inWindow addr = true) :
    nextAccess s = some (.write addr size w) := by simp [nextAccess, hi, hw]

/-- Where the next access comes from. -/
theorem nextAccess_some {a : Access} (h : nextAccess s = some a) :
    (∃ addr size rest, a = .read addr size ∧ s.inputs = .host (.read addr size) :: rest ∧ s.inWindow addr = true) ∨
      ∃ addr size w rest, a = .write addr size w ∧ s.inputs = .host (.write addr size w) :: rest ∧
        s.inWindow addr = true := by
  unfold nextAccess at h
  split at h
  · rename_i addr size rest hi
    split at h
    · rename_i hw
      exact .inl ⟨addr, size, rest, (Option.some.inj h).symm, hi, hw⟩
    · simp at h
  · rename_i addr size w rest hi
    split at h
    · rename_i hw
      exact .inr ⟨addr, size, w, rest, (Option.some.inj h).symm, hi, hw⟩
    · simp at h
  · simp at h

/-- The strict machine is `step` when no access of the window comes next (U1, U6). -/
theorem strictStep_of_noAccess (h : nextAccess s = none) : strictStep s = step s := by simp [strictStep, h]

/-- It is `step` at an aligned 32-bit access that uses no undefined word. -/
theorem strictStep_of_defined {a : Access} (ha : nextAccess s = some a) (hw : wordAccess a = true)
    (hu : undefinedUse s a = none) : strictStep s = step s := by simp [strictStep, ha, hw, hu]

/-- It faults at an aligned 32-bit access that uses an undefined word (U1). -/
theorem strictStep_of_undefined {a : Access} {r : RegIdx} (ha : nextAccess s = some a) (hw : wordAccess a = true)
    (hu : undefinedUse s a = some r) : strictStep s = .fault (.undefinedUse r) := by
  simp [strictStep, ha, hw, hu]

/-- The register named is the first of the sources whose value is not defined (R24). -/
theorem undefinedSource_some {w : Word} {i : Instr} {r : RegIdx} (hd : decode s.params.nreg w = .legal i)
    (h : undefinedSource s w = some r) : r ∈ sources i ∧ (s.reg r).undef ≠ [] := by
  simp only [undefinedSource, hd] at h
  exact ⟨List.mem_of_find?_eq_some h, by simpa [OpReg.isDefined] using List.find?_some h⟩

/-- No register is named exactly if every source is defined. -/
theorem undefinedSource_none {w : Word} {i : Instr} (hd : decode s.params.nreg w = .legal i) :
    undefinedSource s w = none ↔ ∀ r ∈ sources i, (s.reg r).undef = [] := by
  simp [undefinedSource, hd, OpReg.isDefined]

end Sys2Proof.Machine.Safety
end

