-- ==== Sys2Proof/Tests/Slice0.lean ====
section
/-! SUPPORT. Tests on fixed values, with results from 95_test_vectors.md (V<n>, H<n>) and the examples of the rules, and the
witnesses: concrete states that meet the hypotheses of each statement of Obligations.lean. -/

namespace Sys2Proof.Tests

open Sys2Proof Sys2Proof.Machine Sys2Proof.Claims

/-! ## Well-formedness: each check refuses an ill-formed term (R80) -/

theorem test_wf_ok : Instr.wf 4 (.add 3 1 2) = true := by decide
theorem test_wf_rd : Instr.wf 4 (.add 4 1 2) = false := by decide
theorem test_wf_rs1 : Instr.wf 4 (.shl 0 5 1) = false := by decide
theorem test_wf_rs3 : Instr.wf 4 (.modexp 1 2 3 4) = false := by decide
theorem test_wf_same_destinations : Instr.wf 16 (.div 3 1 2 3) = false := by decide
theorem test_wf_div_aliases_sources : Instr.wf 16 (.div 1 1 2 2) = true := by decide

/-! ## Decoding: one word written out from the spec's encoding for every command (R81, R102 to R171) -/

theorem test_decode_add : decode 16 0b00001_000_0011_0001_0010_0000_00000000#32 = .legal (.add 3 1 2) := by decide
theorem test_decode_addt : decode 16 0b00001_001_0011_0001_0010_0000_00000000#32 = .legal (.addt 3 1 2) := by decide
theorem test_decode_sub : decode 16 0b00010_000_0011_0001_0010_0000_00000000#32 = .legal (.sub 3 1 2) := by decide
theorem test_decode_shl : decode 16 0b00011_000_0010_0001_0000000000000100#32 = .legal (.shl 2 1 4) := by decide
theorem test_decode_shr : decode 16 0b00100_000_0010_0001_0000000000000100#32 = .legal (.shr 2 1 4) := by decide
theorem test_decode_and : decode 16 0b00101_000_0011_0001_0010_0000_00000000#32 = .legal (.and 3 1 2) := by decide
theorem test_decode_cmp : decode 16 0b00110_000_0000_0001_0010_0000_00000000#32 = .legal (.cmp 1 2) := by decide
theorem test_decode_mov : decode 16 0b00111_000_0010_0001_0000_0000_00000000#32 = .legal (.mov 2 1) := by decide
theorem test_decode_ldi : decode 16 0b01000_000_0001_0000_0000000000011011#32 = .legal (.ldi 1 0x1b) := by decide
theorem test_decode_mul : decode 16 0b01001_000_0011_0001_0010_0000_00000000#32 = .legal (.mul 3 1 2) := by decide
theorem test_decode_mulk : decode 16 0b01001_001_0011_0001_0010_0000_00000000#32 = .legal (.mulk 3 1 2) := by decide
theorem test_decode_mult : decode 16 0b01001_010_0011_0001_0010_0000_00000000#32 = .legal (.mult 3 1 2) := by decide
theorem test_decode_div : decode 16 0b01010_000_0011_0001_0010_0100_00000000#32 = .legal (.div 3 1 2 4) := by decide
theorem test_decode_mod : decode 16 0b01011_000_0011_0001_0010_0000_00000000#32 = .legal (.mod 3 1 2) := by decide
theorem test_decode_modadd : decode 16 0b01100_000_0100_0001_0010_0011_00000000#32 = .legal (.modadd 4 1 2 3) := by decide
theorem test_decode_modmul : decode 16 0b01101_000_0100_0001_0010_0011_00000000#32 = .legal (.modmul 4 1 2 3) := by decide
theorem test_decode_modmulk : decode 16 0b01101_001_0100_0001_0010_0011_00000000#32 = .legal (.modmulk 4 1 2 3) := by decide
theorem test_decode_modmult : decode 16 0b01101_010_0100_0001_0010_0011_00000000#32 = .legal (.modmult 4 1 2 3) := by decide
theorem test_decode_modexp : decode 16 0b01110_000_0100_0001_0010_0011_00000000#32 = .legal (.modexp 4 1 2 3) := by decide

/-! The ILLEGAL words of V121 to V137, by reason (R82). -/

theorem test_illegal_V121 : decode 16 0x00000000#32 = .illegal .reservedOpcode := by decide
theorem test_illegal_V122 : decode 16 0xffffffff#32 = .illegal .reservedOpcode := by decide
theorem test_illegal_V123 : decode 16 0x78000000#32 = .illegal .reservedOpcode := by decide
theorem test_illegal_V124 : decode 16 0x0a312000#32 = .illegal .reservedFunction := by decide
theorem test_illegal_V126 : decode 16 0x08312001#32 = .illegal .mustBeZero := by decide
theorem test_illegal_V127 : decode 16 0x08312100#32 = .illegal .mustBeZero := by decide
theorem test_illegal_V128 : decode 16 0x30112000#32 = .illegal .mustBeZero := by decide
theorem test_illegal_V129 : decode 16 0x38211000#32 = .illegal .mustBeZero := by decide
theorem test_illegal_V130 : decode 16 0x4011001b#32 = .illegal .mustBeZero := by decide
theorem test_illegal_V131 : decode 16 0x50312300#32 = .illegal .sameDestinations := by decide
theorem test_illegal_V132 : decode 16 0x71412300#32 = .illegal .reservedFunction := by decide
theorem test_illegal_V134 : decode 4 0x08412000#32 = .illegal .registerIndex := by decide
theorem test_illegal_V136 : decode 4 0x70123400#32 = .illegal .registerIndex := by decide
theorem test_legal_V138 : decode 4 0x08312000#32 = .legal (.add 3 1 2) := by decide
theorem test_lanes_not_one_word : decodeLanes 16 [0x00#8, 0x20#8, 0x31#8] = .illegal .notOneWord := by decide
theorem test_lanes_div : decodeLanes 16 [0x00#8, 0x24#8, 0x31#8, 0x50#8] = .legal (.div 3 1 2 4) := by decide
theorem test_table_word_div : decodeTableWord 32 0x50312400 = some (.div 3 1 2 4) := by decide
/-- The DIV row with every operand field zero has RD = RS3 and is ILLEGAL (R80). -/
theorem test_table_word_div_zero_fields : decodeTableWord 32 0x50000000 = none := by decide
/-- R85: DIV writes its remainder destination second. -/
theorem test_assembly_div : assembly (.div 3 1 2 4) = "DIV r3, r4, r1, r2" := by decide
theorem test_assembly_ldi : assembly (.ldi 1 0x1b) = "LDI r1, #27" := by decide

/-! ## One step of each command -/

/-- The instance with NREG = 16 and `cw` data words a register; the listed registers hold the listed values. -/
def machine (cw : Nat) (rs : List (RegIdx × Nat)) : State :=
  rs.foldl (fun s r => s.writeX r.1 r.2) (State.powerOn { nreg := 16, capWords := cw, base := 0 })

/-- The step that runs word w in that machine. -/
def ran (cw : Nat) (rs : List (RegIdx × Nat)) (w : Nat) : Result := step ((machine cw rs).withFetchWord 32 w)

/-- The error code, and the value of register i, after a step. -/
def outcome (r : Result) (i : RegIdx) : Option (ErrCode × Nat) :=
  match r with
  | .next t => some (t.errcode, t.val i)
  | .fault _ => none
  | .refused _ => none

/-- A field of the state after a step. -/
def field {α : Type} (f : State → α) (r : Result) : Option α :=
  match r with
  | .next t => some (f t)
  | .fault _ => none
  | .refused _ => none

theorem test_add_V3 : outcome (ran 128 [(1, 0xffffffffffffffff), (2, 1)] 0x08312000) 3 =
    some (.none, 0x10000000000000000) := by decide +kernel
theorem test_add_V7_overflow : outcome (ran 2 [(1, 0xffffffffffffffff), (2, 1), (3, 0x99)] 0x08312000) 3 =
    some (.overflow, 0x99) := by decide +kernel
theorem test_addt_V11 : outcome (ran 128 [(1, 5), (2, 3)] 0x09312000) 3 =
    some (.none, 0) := by decide
theorem test_addt_V15 : outcome (ran 2 [(1, 0xffffffffffffffff), (2, 0xffffffffffffffff)] 0x09312000) 3 =
    some (.none, 0xfffffffffffffffe) := by decide +kernel
theorem test_sub_V23 : outcome (ran 128 [(1, 0x10000000000000000), (2, 1)] 0x10312000) 3 =
    some (.none, 0xffffffffffffffff) := by decide
theorem test_sub_V22_underflow : outcome (ran 128 [(1, 0x10), (2, 0x11), (3, 0x99)] 0x10312000) 3 =
    some (.underflow, 0x99) := by decide
theorem test_shl_V29 : outcome (ran 2 [(1, 1)] 0x1821003f) 2 =
    some (.none, 0x8000000000000000) := by decide
theorem test_shl_V30_overflow : outcome (ran 2 [(1, 1), (2, 0x99)] 0x18210040) 2 =
    some (.overflow, 0x99) := by decide
theorem test_shr_V38 : outcome (ran 128 [(1, 0x10000000200000000)] 0x20210021) 2 =
    some (.none, 0x80000001) := by decide
theorem test_shr_V34 : outcome (ran 128 [(1, 0x1234)] 0x2021000d) 2 =
    some (.none, 0) := by decide
theorem test_and_V42 : outcome (ran 128 [(1, 0x10000000000000005), (2, 0xffffffff)] 0x28312000) 3 =
    some (.none, 5) := by decide
theorem test_and_V39 : outcome (ran 128 [(1, 0xf0f0), (2, 0xff00)] 0x28312000) 3 =
    some (.none, 0xf000) := by decide
theorem test_mov_V53 : outcome (ran 128 [(1, 2 ^ 4095 + 1), (2, 5)] 0x38210000) 2 =
    some (.none, 2 ^ 4095 + 1) := by decide +kernel
theorem test_ldi_V55 : outcome (ran 128 [(1, 2 ^ 4095)] 0x40100000) 1 =
    some (.none, 0) := by decide
theorem test_ldi_V56 : outcome (ran 128 [] 0x4010ffff) 1 =
    some (.none, 0xffff) := by decide
theorem test_mul_V57 : outcome (ran 128 [(1, 0xffffffff), (2, 0xffffffff)] 0x48312000) 3 =
    some (.none, 0xfffffffe00000001) := by decide +kernel
theorem test_mul_V72_overflow : outcome (ran 2 [(1, 0x100000000), (2, 0x100000000), (3, 0x99)] 0x48312000) 3 =
    some (.overflow, 0x99) := by decide
theorem test_mulk_V69 : outcome (ran 128 [(1, 3), (2, 0x10000000001)] 0x49312000) 3 =
    some (.none, 0x30000000003) := by decide +kernel
theorem test_mulk_V73_overflow : outcome (ran 2 [(1, 0x100000000), (2, 0x100000000), (3, 0x99)] 0x49312000) 3 =
    some (.overflow, 0x99) := by decide
theorem test_mult_V70 : outcome (ran 128 [(1, 0xfffff), (2, 0xf)] 0x4a312000) 3 =
    some (.none, 0xeffff1) := by decide +kernel
theorem test_mult_V74_overflow : outcome (ran 2 [(1, 0x100000000), (2, 0x100000000), (3, 0x99)] 0x4a312000) 3 =
    some (.overflow, 0x99) := by decide
theorem test_div_V79_divzero : outcome (ran 128 [(1, 0), (2, 0), (3, 0x99), (4, 0x98)] 0x50312400) 4 =
    some (.divzero, 0x98) := by decide
theorem test_mod_V87 : outcome (ran 128 [(1, 0x3e8), (2, 0x37)] 0x58312000) 3 =
    some (.none, 0xa) := by decide
theorem test_mod_V91_divzero : outcome (ran 128 [(1, 0x1234), (2, 0), (3, 0x99)] 0x58312000) 3 =
    some (.divzero, 0x99) := by decide
theorem test_modadd_V95 : outcome (ran 128 [(1, 0x100), (2, 0x200), (3, 0x37)] 0x60412300) 4 =
    some (.none, 0x35) := by decide
theorem test_modadd_V97_divzero : outcome (ran 128 [(1, 5), (2, 6), (3, 0), (4, 0x99)] 0x60412300) 4 =
    some (.divzero, 0x99) := by decide
theorem test_modmul_V103 : outcome (ran 2 [(1, 0x8000000000000000), (2, 0x8000000000000000), (3, 0xffffffffffffffc5)] 0x68412300) 4 =
    some (.none, 0xc00000000000033a) := by decide +kernel
theorem test_modmul_V106_divzero : outcome (ran 128 [(1, 3), (2, 4), (3, 0), (4, 0x99)] 0x68412300) 4 =
    some (.divzero, 0x99) := by decide
theorem test_modmulk_V104 : outcome (ran 2 [(1, 0x8000000000000000), (2, 0x8000000000000000), (3, 0xffffffffffffffc5)] 0x69412300) 4 =
    some (.none, 0xc00000000000033a) := by decide +kernel
theorem test_modmult_V105 : outcome (ran 2 [(1, 0x8000000000000000), (2, 0x8000000000000000), (3, 0xffffffffffffffc5)] 0x6a412300) 4 =
    some (.none, 0xc00000000000033a) := by decide +kernel
theorem test_modmult_V107 : outcome (ran 128 [(1, 3), (2, 4), (3, 1)] 0x6a412300) 4 =
    some (.none, 0) := by decide
theorem test_modexp_V111 : outcome (ran 128 [(1, 0x1234), (2, 0), (3, 1)] 0x70412300) 4 =
    some (.none, 1) := by decide
theorem test_modexp_V109 : outcome (ran 128 [(1, 0x2b), (2, 0x1b), (3, 0x37)] 0x70412300) 4 =
    some (.none, 0x20) := by decide
/-- V84: the destinations alias both sources. -/
theorem test_div_V84 : field (fun t => (t.errcode, t.val 1, t.val 2)) (ran 128 [(1, 0x64), (2, 7)] 0x50112200) =
    some (.none, 0xe, 2) := by decide
theorem test_cmp_V48 : field (fun t => (t.cmp, t.statusWord)) (ran 128 [(1, 0xa), (2, 0xc)] 0x30012000) =
    some (.lt, 0x00000004#32) := by decide
theorem test_cmp_V49 : field (fun t => (t.cmp, t.statusWord)) (ran 128 [(1, 0x10000000000000000), (2, 0xffffffffffffffff)]
    0x30012000) = some (.gt, 0x00000008#32) := by decide
/-- V121: the CMD reset value is ILLEGAL; DONE and ERROR are set. -/
theorem test_illegal_flags : field (fun t => (t.errcode, t.irqStatus, t.statusWord)) (ran 128 [] 0x00000000) =
    some (.illegal, 0b0011#4, 0x00000012#32) := by decide

/-! ## One host access -/

/-- One step of the default instance, with operand register 1 holding v, that performs input e. -/
def did (v : Nat) (pending : Option Pending) (e : Input) : Result :=
  step { (machine 128 [(1, v)]) with rsel := 1, pending := pending, inputs := [e] }

/-- A command in flight: LDI r2, #1. -/
def busyWork : Pending := { work := .command (.ldi 2 1), operands := [] }

theorem test_id_read : field (·.responses) (did 0 none (hostRead Config.defaultParams .id)) = some [0x42494301#32] := by
  decide
theorem test_nbits_read : field (·.responses) (did 0x1234 none (hostRead Config.defaultParams .nbits)) = some [13#32] := by
  decide
theorem test_data_read : field (fun t => (t.responses, t.widx)) (did 0x1122334455 none (hostRead Config.defaultParams .data)) =
    some ([0x22334455#32], 1#16) := by decide
theorem test_data_write : field (fun t => (t.val 1, t.widx)) (did 0x1122334455 none (hostWrite Config.defaultParams .data 7)) =
    some (0x1100000007, 1#16) := by decide
theorem test_data_read_busy : field (fun t => (t.responses, t.widx, t.irqStatus))
    (did 5 (some busyWork) (hostRead Config.defaultParams .data)) = some ([0#32], 0#16, 0b1000#4) := by decide
theorem test_cmd_write_busy : field (fun t => (t.cmd, t.irqStatus, t.pending))
    (did 5 (some busyWork) (hostWrite Config.defaultParams .cmd 0x40100007#32)) =
    some (0#32, 0b0100#4, some busyWork) := by decide
theorem test_soft_reset : field (fun t => (t.val 1, t.rsel, t.pending)) (did 5 (some busyWork)
    (hostWrite Config.defaultParams .ctrl 1)) = some (5, 0#4, none) := by decide
theorem test_reset_pin : field (fun t => (decide (t.x = State.reset.x), t.pending)) (did 5 (some busyWork) .resetPin) =
    some (true, none) := by decide
/-- H1: STATUS, IRQ_STATUS, CMD and the other registers right after power-on (R220). -/
theorem test_reset : (State.reset.statusWord, State.reset.irqStatus, State.reset.cmd, State.reset.irq, State.reset.x.length) =
    (0#32, 0#4, 0#32, false, 16) := by decide
/-- The strict machine stops at a DATA read of a word that nothing has written (U1); `step` goes on. -/
theorem test_strict_undefined : (match Safety.strictStep { State.reset with inputs := [hostRead Config.defaultParams .data] } with
    | .fault f => some f
    | .next _ => none
    | .refused _ => none) = some (.undefinedUse 0) := by decide

/-! ## Witnesses: the hypotheses of the statements are met, each clause at a boundary of its range -/

/-- NREG = 16, CAPBITS = 64. -/
def small : Params := { nreg := 16, capWords := 2, base := 0 }

/-- The small instance with command i in flight on the operands `ops`. -/
def flight (i : Instr) (ops : List Nat) : State := launched (State.powerOn small) i ops

/-- The default instance after reset, with the listed accesses to come. -/
def hostDoes (l : List Input) : State := { State.reset with inputs := l }

/-- The hypotheses of issuing command i (`Issues`): well-formed, an Idle core, and the write of its word next. -/
def issueHypotheses (i : Instr) : Prop :=
  i.wf (hostDoes [hostIssue State.reset.params i]).params.nreg = true ∧
    (hostDoes [hostIssue State.reset.params i]).pending = none ∧
    (hostDoes [hostIssue State.reset.params i]).inputs = hostIssue (hostDoes [hostIssue State.reset.params i]).params i :: []

theorem witness_AddWritesSumOrOverflows :
    issueHypotheses (.add 3 1 2) ∧
    Running (flight (.add 3 1 2) [2 ^ 64 - 1, 0]) (.add 3 1 2) [2 ^ 64 - 1, 0] ∧
    Running (flight (.add 3 1 2) [2 ^ 64 - 1, 1]) (.add 3 1 2) [2 ^ 64 - 1, 1] ∧
    2 ^ 64 - 1 + 0 < 2 ^ small.capBits ∧
    ¬(2 ^ 64 - 1 + 1 < 2 ^ small.capBits) := by
  refine ⟨⟨by decide, rfl, rfl⟩, rfl, rfl, by decide, by decide⟩
theorem witness_AddtTruncatesToCallersLength :
    issueHypotheses (.addt 3 1 2) ∧
    Running (flight (.addt 3 1 2) [0, 5]) (.addt 3 1 2) [0, 5] ∧
    Running (flight (.addt 3 1 2) [7, 1]) (.addt 3 1 2) [7, 1] := by
  refine ⟨⟨by decide, rfl, rfl⟩, rfl, rfl⟩
theorem witness_SubWritesDifferenceOrUnderflows :
    issueHypotheses (.sub 3 1 2) ∧
    Running (flight (.sub 3 1 2) [5, 5]) (.sub 3 1 2) [5, 5] ∧
    Running (flight (.sub 3 1 2) [5, 6]) (.sub 3 1 2) [5, 6] ∧
    ¬(5 < 5) ∧
    5 < 6 := by
  refine ⟨⟨by decide, rfl, rfl⟩, rfl, rfl, by decide, by decide⟩
theorem witness_ShlWritesShiftedOrOverflows :
    issueHypotheses (.shl 2 1 63) ∧
    Running (flight (.shl 2 1 63) [1]) (.shl 2 1 63) [1] ∧
    Running (flight (.shl 2 1 63) [2]) (.shl 2 1 63) [2] ∧
    1 * 2 ^ (63#16).toNat < 2 ^ small.capBits ∧
    ¬(2 * 2 ^ (63#16).toNat < 2 ^ small.capBits) := by
  refine ⟨⟨by decide, rfl, rfl⟩, rfl, rfl, by decide, by decide⟩
theorem witness_ShrDropsLowBits :
    issueHypotheses (.shr 2 1 64) ∧
    Running (flight (.shr 2 1 64) [2 ^ 64 - 1]) (.shr 2 1 64) [2 ^ 64 - 1] := by
  refine ⟨⟨by decide, rfl, rfl⟩, rfl⟩
theorem witness_AndIsBitwise :
    issueHypotheses (.and 3 1 2) ∧
    Running (flight (.and 3 1 2) [0, 2 ^ 64 - 1]) (.and 3 1 2) [0, 2 ^ 64 - 1] := by
  refine ⟨⟨by decide, rfl, rfl⟩, rfl⟩
theorem witness_CmpReportsOrder :
    issueHypotheses (.cmp 1 2) ∧
    Running (flight (.cmp 1 2) [4, 4]) (.cmp 1 2) [4, 4] ∧
    Running (flight (.cmp 1 2) [4, 5]) (.cmp 1 2) [4, 5] ∧
    Running (flight (.cmp 1 2) [5, 4]) (.cmp 1 2) [5, 4] ∧
    4 = 4 ∧
    4 < 5 ∧
    ¬(5 = 4) ∧
    ¬(5 < 4) := by
  refine ⟨⟨by decide, rfl, rfl⟩, rfl, rfl, rfl, by decide, by decide, by decide, by decide⟩
theorem witness_MovCopies :
    issueHypotheses (.mov 1 1) ∧
    Running (flight (.mov 1 1) [2 ^ 64 - 1]) (.mov 1 1) [2 ^ 64 - 1] := by
  refine ⟨⟨by decide, rfl, rfl⟩, rfl⟩
theorem witness_LdiLoadsConstant :
    issueHypotheses (.ldi 1 0xffff) ∧
    Running (flight (.ldi 1 0xffff) []) (.ldi 1 0xffff) [] := by
  refine ⟨⟨by decide, rfl, rfl⟩, rfl⟩
theorem witness_MulWritesProductOrOverflows :
    issueHypotheses (.mul 3 1 2) ∧
    Running (flight (.mul 3 1 2) [2 ^ 64 - 1, 1]) (.mul 3 1 2) [2 ^ 64 - 1, 1] ∧
    Running (flight (.mul 3 1 2) [2 ^ 63, 2]) (.mul 3 1 2) [2 ^ 63, 2] ∧
    (2 ^ 64 - 1) * 1 < 2 ^ small.capBits ∧
    ¬(2 ^ 63 * 2 < 2 ^ small.capBits) := by
  refine ⟨⟨by decide, rfl, rfl⟩, rfl, rfl, by decide, by decide⟩
theorem witness_MulkWritesProductOrOverflows :
    issueHypotheses (.mulk 3 1 2) ∧
    Running (flight (.mulk 3 1 2) [2 ^ 64 - 1, 1]) (.mulk 3 1 2) [2 ^ 64 - 1, 1] ∧
    Running (flight (.mulk 3 1 2) [2 ^ 63, 2]) (.mulk 3 1 2) [2 ^ 63, 2] ∧
    (2 ^ 64 - 1) * 1 < 2 ^ small.capBits ∧
    ¬(2 ^ 63 * 2 < 2 ^ small.capBits) := by
  refine ⟨⟨by decide, rfl, rfl⟩, rfl, rfl, by decide, by decide⟩
theorem witness_MultWritesProductOrOverflows :
    issueHypotheses (.mult 3 1 2) ∧
    Running (flight (.mult 3 1 2) [2 ^ 64 - 1, 1]) (.mult 3 1 2) [2 ^ 64 - 1, 1] ∧
    Running (flight (.mult 3 1 2) [2 ^ 63, 2]) (.mult 3 1 2) [2 ^ 63, 2] ∧
    (2 ^ 64 - 1) * 1 < 2 ^ small.capBits ∧
    ¬(2 ^ 63 * 2 < 2 ^ small.capBits) := by
  refine ⟨⟨by decide, rfl, rfl⟩, rfl, rfl, by decide, by decide⟩
theorem witness_DivWritesQuotientAndRemainder :
    issueHypotheses (.div 3 1 2 4) ∧
    Running (flight (.div 3 1 2 4) [0, 0]) (.div 3 1 2 4) [0, 0] ∧
    Running (flight (.div 3 1 2 4) [0, 1]) (.div 3 1 2 4) [0, 1] ∧
    1 ≠ 0 := by
  refine ⟨⟨by decide, rfl, rfl⟩, rfl, rfl, by decide⟩
theorem witness_ModWritesRemainder :
    issueHypotheses (.mod 3 1 2) ∧
    Running (flight (.mod 3 1 2) [0, 0]) (.mod 3 1 2) [0, 0] ∧
    Running (flight (.mod 3 1 2) [0, 1]) (.mod 3 1 2) [0, 1] ∧
    1 ≠ 0 := by
  refine ⟨⟨by decide, rfl, rfl⟩, rfl, rfl, by decide⟩
theorem witness_ModaddWritesResidueOfSum :
    issueHypotheses (.modadd 4 1 2 3) ∧
    Running (flight (.modadd 4 1 2 3) [3, 0, 0]) (.modadd 4 1 2 3) [3, 0, 0] ∧
    Running (flight (.modadd 4 1 2 3) [3, 0, 1]) (.modadd 4 1 2 3) [3, 0, 1] ∧
    Running (flight (.modadd 4 1 2 3) [3, 1, 1]) (.modadd 4 1 2 3) [3, 1, 1] ∧
    1 ≠ 0 := by
  refine ⟨⟨by decide, rfl, rfl⟩, rfl, rfl, rfl, by decide⟩
theorem witness_ModmulWritesResidueOfProduct :
    issueHypotheses (.modmul 4 1 2 3) ∧
    Running (flight (.modmul 4 1 2 3) [3, 0, 0]) (.modmul 4 1 2 3) [3, 0, 0] ∧
    Running (flight (.modmul 4 1 2 3) [3, 0, 1]) (.modmul 4 1 2 3) [3, 0, 1] ∧
    Running (flight (.modmul 4 1 2 3) [3, 1, 1]) (.modmul 4 1 2 3) [3, 1, 1] ∧
    1 ≠ 0 := by
  refine ⟨⟨by decide, rfl, rfl⟩, rfl, rfl, rfl, by decide⟩
theorem witness_ModmulkWritesResidueOfProduct :
    issueHypotheses (.modmulk 4 1 2 3) ∧
    Running (flight (.modmulk 4 1 2 3) [3, 0, 0]) (.modmulk 4 1 2 3) [3, 0, 0] ∧
    Running (flight (.modmulk 4 1 2 3) [3, 0, 1]) (.modmulk 4 1 2 3) [3, 0, 1] ∧
    Running (flight (.modmulk 4 1 2 3) [3, 1, 1]) (.modmulk 4 1 2 3) [3, 1, 1] ∧
    1 ≠ 0 := by
  refine ⟨⟨by decide, rfl, rfl⟩, rfl, rfl, rfl, by decide⟩
theorem witness_ModmultWritesResidueOfProduct :
    issueHypotheses (.modmult 4 1 2 3) ∧
    Running (flight (.modmult 4 1 2 3) [3, 0, 0]) (.modmult 4 1 2 3) [3, 0, 0] ∧
    Running (flight (.modmult 4 1 2 3) [3, 0, 1]) (.modmult 4 1 2 3) [3, 0, 1] ∧
    Running (flight (.modmult 4 1 2 3) [3, 1, 1]) (.modmult 4 1 2 3) [3, 1, 1] ∧
    1 ≠ 0 := by
  refine ⟨⟨by decide, rfl, rfl⟩, rfl, rfl, rfl, by decide⟩
theorem witness_ModexpWritesPower :
    issueHypotheses (.modexp 4 1 2 3) ∧
    Running (flight (.modexp 4 1 2 3) [3, 0, 0]) (.modexp 4 1 2 3) [3, 0, 0] ∧
    Running (flight (.modexp 4 1 2 3) [3, 0, 1]) (.modexp 4 1 2 3) [3, 0, 1] ∧
    Running (flight (.modexp 4 1 2 3) [3, 1, 1]) (.modexp 4 1 2 3) [3, 1, 1] ∧
    1 ≠ 0 := by
  refine ⟨⟨by decide, rfl, rfl⟩, rfl, rfl, rfl, by decide⟩

theorem witness_ComplementSubtractorSubtracts : 7 ≤ 7 ∧ 0 ≤ 7 := by decide
theorem witness_RippleAdderAdds : 3 = max (nbits 7) (nbits 1) := by decide
theorem witness_ComparatorIsOrder : nbits 7 < nbits 8 ∧ nbits 10 = nbits 12 ∧ Nat.testBit 10 2 ≠ Nat.testBit 12 2 := by decide
theorem witness_LongDivisionDivides : 0 < 1 ∧ 1 ≠ 0 ∧ quadDiv (1 / 2) 1 = (0, 0) := by decide
theorem witness_SquareAndMultiplyIsPower : 0 < 1 ∧ 1 ≠ 0 := by decide
theorem witness_NbitsIsLeastBound : 8 < 2 ^ 4 ∧ ¬(8 < 2 ^ 3) ∧ nbits 8 = 4 := by decide
theorem witness_LanesAreLittleEndian : 3 < 4 ∧ 7 < 8 := by decide
theorem witness_RegisterIsSumOfItsWords : 31 < 32 ∧ 2 ^ 64 - 1 < 2 ^ (32 * 2) := by decide

theorem witness_DecodeOfEncodeIsIdentity : Instr.wf 16 (.div 15 0 0 14) = true ∧ Instr.wf 1 (.ldi 0 0xffff) = true := by decide
theorem witness_EncodeOfDecodeIsIdentity : decode 16 0x50f00e00#32 = .legal (.div 15 0 0 14) := by decide
theorem witness_OneRowMatchesEachWord : ("ADD", 0x08000000#32, 0xff000fff#32) ∈ matchMask ∧
    0x08312000#32 &&& 0xff000fff#32 = 0x08000000#32 := by decide
theorem witness_IllegalWordsAreExactlyThose : bits 0x00000000#32 27 5 = 0 ∧ 0x0F ≤ bits 0x78000000#32 27 5 ∧
    bits 0x0a312000#32 24 3 = 2 ∧ bits 0x08312001#32 0 8 ≠ 0 ∧ 4 ≤ bits 0x08412000#32 20 4 ∧
    bits 0x50312300#32 20 4 = bits 0x50312300#32 8 4 ∧ decode State.reset.params.nreg 0#32 = .illegal .reservedOpcode ∧
    (hostDoes [hostWrite State.reset.params .cmd 0, .core]).pending = none := by decide


theorem witness_StepRunsPendingCommand :
    decode State.reset.params.nreg (BitVec.ofNat 32 (0x4010001b % 2 ^ 32)) = .legal (.ldi 1 0x1b) ∧
    Running { flight (.ldi 1 1) [] with inputs := [.core] } (.ldi 1 1) [] ∧
    Running (flight (.ldi 1 1) []) (.ldi 1 1) [] ∧ (flight (.ldi 1 1) []).inputs = [] ∧
    State.pending { State.reset with inputs := [.core] } = none := by
  refine ⟨by decide, rfl, rfl, rfl, rfl⟩

theorem witness_IllegalCompletesWithCodeOne :
    (hostDoes [hostWrite State.reset.params .cmd 0]).inputs = hostWrite State.reset.params .cmd 0 :: [] ∧
    (hostDoes [hostWrite State.reset.params .cmd 0]).pending = none ∧
    decode State.reset.params.nreg 0#32 = .illegal .reservedOpcode ∧
    State.pending { hostDoes [.core] with pending := some { work := .illegal, operands := [] } } =
      some { work := .illegal, operands := [] } := by
  refine ⟨rfl, rfl, by decide, rfl⟩
theorem witness_CmdWriteIsAcceptedOrOverruns :
    (hostDoes [hostWrite State.reset.params .cmd 0x4010001b#32]).inputs =
      hostWrite (hostDoes [hostWrite State.reset.params .cmd 0x4010001b#32]).params .cmd 0x4010001b#32 :: [] ∧
    (hostDoes [hostWrite State.reset.params .cmd 0x4010001b#32]).pending = none ∧
    State.pending { hostDoes [hostWrite State.reset.params .cmd 0x4010001b#32] with pending := some busyWork } ≠ none := by
  refine ⟨rfl, rfl, by decide⟩
theorem witness_PowerOnMeetsInvariant : (Params.mk 1 1 0).wf ∧ (Params.mk 16 2048 256).wf := by decide

/-- CMD holds LDI r1, #27 and it is in flight. -/
def ldiRuns : State := (State.powerOn small).accept 0x4010001b#32

theorem ldiRuns_inv : ldiRuns.Inv := by decide
theorem witness_StepKeepsInvariant : ldiRuns.Inv ∧ ∃ t, step ldiRuns = .next t := ⟨ldiRuns_inv, _, rfl⟩
theorem witness_SampledOperandsAreRegisterValues : ldiRuns.Inv ∧ Running ldiRuns (.ldi 1 0x1b) [] ∧
    ((State.powerOn small).accept 0x08312000#32).Inv ∧
    Running ((State.powerOn small).accept 0x08312000#32) (.add 3 1 2) [0, 0] := by
  refine ⟨ldiRuns_inv, rfl, by decide, rfl⟩
theorem witness_LatencyDoesNotChangeTheResult : ldiRuns.pending ≠ none ∧
    Access.ordinary ldiRuns (.read 0 .word) ∧ Access.ordinary ldiRuns (.write 0xff .byte 0) ∧
    Access.ordinary ldiRuns (.write 0x0c .word 2) := by
  refine ⟨by decide, (by decide : ldiRuns.inWindow 0 = true), ⟨by decide, by decide⟩, ⟨by decide, by decide⟩⟩
theorem witness_PendingCommandCompletes : ldiRuns.pending ≠ none ∧ (∀ e ∈ ldiRuns.inputs, e = Input.core) ∧
    ∀ e ∈ [Input.host (.read 0x10 .word), .core], e = .core ∨ ∃ a, e = .host a ∧ a.ordinary ldiRuns := by
  refine ⟨by decide, by decide, fun e he => ?_⟩
  simp only [List.mem_cons, List.not_mem_nil, or_false] at he
  rcases he with rfl | rfl
  · exact .inr ⟨_, rfl, (by decide : ldiRuns.inWindow 0x10 = true)⟩
  · exact .inl rfl

theorem witness_CommandFrame : ∃ t, exec (.ldi 1 0x1b) ldiRuns = .next t ∧
    (∀ r ∈ dests (.ldi 1 0x1b), r.toNat ≠ 0) ∧ (∀ rs1 rs2, Instr.ldi 1 0x1b ≠ .cmp rs1 rs2) :=
  ⟨_, rfl, by decide, fun _ _ h => by cases h⟩
theorem witness_ErrorsArePreciseAndOfTheCommandsSet :
    (flight (.div 3 1 2 4) [0, 0]).pending ≠ none ∧ ∃ t, coreTurn (flight (.div 3 1 2 4) [0, 0]) = .next t ∧
    t.errcode ≠ .none := ⟨by decide, _, rfl, by decide⟩

/-- Each event of R198 happens, and each flag can be cleared and can stay. -/
theorem witness_EventFlagsAreSetExactlyByTheirEvents :
    (∃ t, step ldiRuns = .next t ∧ ldiRuns.completes ∧ t.irqStatus = 0b0001#4) ∧
    (∃ t, step (flight (.div 3 1 2 4) [0, 0]) = .next t ∧ t.irqStatus = 0b0011#4) ∧
    (∃ t, step { ldiRuns with inputs := [hostWrite small .cmd 0] } = .next t ∧ t.irqStatus = 0b0100#4) ∧
    (∃ t, step { ldiRuns with inputs := [hostRead small .nbits] } = .next t ∧ t.irqStatus = 0b1000#4) ∧
    (∃ t, step { State.powerOn small with irqStatus := 15, inputs := [hostWrite small .irqStatus 5] } = .next t ∧
      t.irqStatus = 0b1010#4) ∧
    ∃ t, step { State.powerOn small with irqStatus := 15, inputs := [.resetPin] } = .next t ∧ t.irqStatus = 0 :=
  ⟨⟨_, rfl, ⟨by decide, .inl rfl⟩, rfl⟩, ⟨_, rfl, rfl⟩, ⟨_, rfl, rfl⟩, ⟨_, rfl, rfl⟩, ⟨_, rfl, rfl⟩, ⟨_, rfl, rfl⟩⟩
theorem witness_CmpIsWrittenOnlyByCmp :
    (∃ t, step (flight (.cmp 1 2) [4, 5]) = .next t ∧ t.cmp ≠ (flight (.cmp 1 2) [4, 5]).cmp) ∧
    (∃ t, step { State.powerOn small with cmp := .gt, inputs := [hostWrite small .ctrl 1] } = .next t ∧ t.cmp ≠ .gt) ∧
    (flight (.cmp 1 2) [5, 5]).completes ∧ (flight (.cmp 1 2) [6, 5]).completes :=
  ⟨⟨_, rfl, by decide⟩, ⟨_, rfl, by decide⟩, ⟨by decide, .inl rfl⟩, ⟨by decide, .inl rfl⟩⟩
theorem witness_ErrorCodeIsWrittenOnlyBy :
    State.writes { State.powerOn small with errcode := .divzero, inputs := [hostWrite small .cmd 0] } .cmd 0 ∧
    (∃ t, step (flight (.mod 3 1 2) [0, 0]) = .next t ∧ t.errcode ≠ .none) ∧
    (∃ t, step { State.powerOn small with errcode := .divzero, inputs := [hostWrite small .cmd 0] } = .next t ∧
      t.errcode ≠ .divzero) ∧
    ∃ t, step { State.powerOn small with errcode := .divzero, inputs := [.resetPin] } = .next t ∧ t.errcode ≠ .divzero :=
  ⟨⟨_, _, _, rfl, by decide, by decide⟩, ⟨_, rfl, by decide⟩, ⟨_, rfl, by decide⟩, ⟨_, rfl, by decide⟩⟩
theorem witness_RegistersAreWrittenOnlyBy :
    (∃ t, step ldiRuns = .next t ∧ t.x ≠ ldiRuns.x) ∧
    (∃ t, step { State.powerOn small with inputs := [hostWrite small .data 1] } = .next t ∧ t.x ≠ (State.powerOn small).x) ∧
    ∃ t, step { machine 2 [(1, 5)] with inputs := [.resetPin] } = .next t ∧ t.x ≠ (machine 2 [(1, 5)]).x :=
  ⟨⟨_, rfl, by decide⟩, ⟨_, rfl, by decide⟩, ⟨_, rfl, by decide⟩⟩

theorem witness_SoftResetKeepsOnlyRegisters :
    (hostDoes [hostWrite State.reset.params .ctrl 1]).inputs = hostWrite State.reset.params .ctrl 1 :: [] ∧
    (1#32).getLsbD 0 = true ∧ (2#32).getLsbD 0 = false := by
  refine ⟨rfl, by decide, by decide⟩
theorem witness_PowerOnResetState : (hostDoes [.resetPin]).inputs = .resetPin :: [] := rfl

/-- The hypotheses of a statement about a host read of r, and of one about a host write of w to r. -/
theorem host_hypotheses (r : WinReg) (w : Word) :
    (hostDoes [hostRead State.reset.params r]).inputs = hostRead (hostDoes [hostRead State.reset.params r]).params r :: [] ∧
    (hostDoes [hostWrite State.reset.params r w]).inputs =
      hostWrite (hostDoes [hostWrite State.reset.params r w]).params r w :: [] := ⟨rfl, rfl⟩

theorem witness_DataAndNbitsReads : (hostDoes [hostRead State.reset.params .data]).pending = none ∧
    (hostDoes [hostRead State.reset.params .data]).inputs = hostRead State.reset.params .data :: [] ∧
    (hostDoes [hostRead State.reset.params .nbits]).inputs = hostRead State.reset.params .nbits :: [] ∧
    State.pending { hostDoes [hostRead State.reset.params .data] with pending := some busyWork } ≠ none := by
  refine ⟨rfl, rfl, rfl, by decide⟩
/-- Both sides of the range checks: the last word, and the first that does not exist. -/
theorem witness_DataWriteReplacesOneWord :
    State.pending { hostDoes [hostWrite State.reset.params .data 7] with pending := some busyWork } ≠ none ∧
    (hostDoes [hostWrite State.reset.params .data 7]).pending = none ∧
    (hostDoes [hostWrite State.reset.params .data 7]).x.length = State.reset.params.nreg ∧
    (hostDoes [hostWrite State.reset.params .data 7]).inputs = hostWrite State.reset.params .data 7 :: [] ∧
    ((15#4).toNat < State.reset.params.nreg ∧ (127#16).toNat < State.reset.params.capWords) ∧
    ¬((15#4).toNat < State.reset.params.nreg ∧ (128#16).toNat < State.reset.params.capWords) := by
  refine ⟨by decide, rfl, by decide, rfl, by decide, by decide⟩
theorem witness_WindowIsBlockedWhileBusy :
    State.pending { hostDoes [hostRead State.reset.params .data] with pending := some busyWork } ≠ none ∧
    (hostDoes [hostRead State.reset.params .data]).inputs = hostRead State.reset.params .data :: [] ∧
    (hostDoes [hostRead State.reset.params .nbits]).inputs = hostRead State.reset.params .nbits :: [] ∧
    (hostDoes [hostWrite State.reset.params .data 7]).inputs = hostWrite State.reset.params .data 7 :: [] ∧
    WinReg.status ≠ .data ∧ WinReg.status ≠ .nbits ∧
    (hostDoes [hostRead State.reset.params .status]).inputs = hostRead State.reset.params .status :: [] := by
  refine ⟨by decide, rfl, rfl, rfl, by decide, by decide, rfl⟩
theorem witness_WindowReads : State.reset.params.wf ∧ WinReg.reserved ≠ .data ∧ WinReg.reserved ≠ .nbits ∧
    (hostDoes [hostRead State.reset.params .reserved]).inputs = hostRead State.reset.params .reserved :: [] := by
  refine ⟨by decide, by decide, by decide, rfl⟩
theorem witness_WindowWrites :
    (hostDoes [hostWrite State.reset.params .irqStatus 1]).inputs = hostWrite State.reset.params .irqStatus 1 :: [] ∧
    (hostDoes [hostWrite State.reset.params .irqEnable 1]).inputs = hostWrite State.reset.params .irqEnable 1 :: [] ∧
    (hostDoes [hostWrite State.reset.params .rsel 1]).inputs = hostWrite State.reset.params .rsel 1 :: [] ∧
    (hostDoes [hostWrite State.reset.params .widx 1]).inputs = hostWrite State.reset.params .widx 1 :: [] ∧
    (hostDoes [hostWrite State.reset.params .id 1]).inputs = hostWrite State.reset.params .id 1 :: [] :=
  ⟨rfl, rfl, rfl, rfl, rfl⟩
theorem witness_AccessesAreDecodedByWordOffset : State.inWindow (hostDoes [.host (.write 0x14 .half 1)]) 0x14 = true ∧
    State.inWindow (hostDoes [.host (.read 0x11 .word)]) 0x11 = true ∧ Size.half ≠ .word ∧ 0x11 % 4 ≠ 0 ∧ State.reset.params.wf ∧ 0xff < 0x100 ∧
    State.reset.params.base + 0x30 ≤ 0x30 ∧ 0xff < State.reset.params.base + 0x100 ∧
    (hostDoes [.host (.read 0x30 .byte)]).inputs = .host (.read 0x30 .byte) :: [] ∧
    (hostDoes [.host (.write 0xff .half 1)]).inputs = .host (.write 0xff .half 1) :: [] := by
  refine ⟨by decide, by decide, by decide, by decide, by decide, by decide, by decide, by decide, rfl, rfl⟩
theorem witness_IrqIsOrOfEnabledFlags : State.irq { State.reset with irqStatus := 8, irqEnable := 8 } = true := by decide
/-- Every pseudo-instruction can be issued, also with one register in every place, and its result can fit. -/
theorem witness_PseudoInstructionsMeanWhatTheySay :
    (issueHypotheses (expand (.clr 15)) ∧ issueHypotheses (expand (.sqr 1 1)) ∧ issueHypotheses (expand (.dbl 1 2)) ∧
      issueHypotheses (expand (.half 1 2)) ∧ issueHypotheses (expand (.modsqr 1 1 1)) ∧
      issueHypotheses (expand (.nopr 15))) ∧
    (2 ^ 32 - 1) ^ 2 < 2 ^ small.capBits ∧ 2 * (2 ^ 63 - 1) < 2 ^ small.capBits ∧ 1 ≠ 0 := by
  refine ⟨⟨⟨by decide, rfl, rfl⟩, ⟨by decide, rfl, rfl⟩, ⟨by decide, rfl, rfl⟩, ⟨by decide, rfl, rfl⟩,
    ⟨by decide, rfl, rfl⟩, ⟨by decide, rfl, rfl⟩⟩, by decide, by decide, by decide⟩

/-- Word 1 of operand register 0 is undefined and word 0 holds 7; two machines that hold different values there. -/
def halfDefined (v : Nat) : State :=
  { State.powerOn small with
    x := { value := 7 + 2 ^ 32 * v, undef := [1] } :: (State.powerOn small).x.tail
    inputs := [hostRead small .data] }

/-- The same machine, about to perform input e. -/
def halfDefinedDoes (e : Input) : State := { halfDefined 0 with inputs := [e] }

/-- A host access of a register of the window is an aligned 32-bit access. -/
theorem aligned_read (s : State) (r : WinReg) (hb : s.params.base % 4 = 0) (rest : List Input)
    (h : s.inputs = hostRead s.params r :: rest) : nextIsAligned s := by
  intro addr size rest' hi
  rcases hi with hi | ⟨w, hi⟩ <;> simp [h, hostRead] at hi
  obtain ⟨⟨rfl, rfl⟩, -⟩ := hi
  cases r <;> simp [WinReg.offset] <;> omega

theorem aligned_write (s : State) (r : WinReg) (w : Word) (hb : s.params.base % 4 = 0) (rest : List Input)
    (h : s.inputs = hostWrite s.params r w :: rest) : nextIsAligned s := by
  intro addr size rest' hi
  rcases hi with hi | ⟨w', hi⟩ <;> simp [h, hostWrite] at hi
  obtain ⟨⟨rfl, rfl, -⟩, -⟩ := hi
  cases r <;> simp [WinReg.offset] <;> omega

/-- Each of the three uses of an undefined word, on aligned accesses; an aligned read of the defined word beside it, which
uses none; and two machines that agree but for the undefined word, which the strict machine lets read word 0. -/
theorem witness_UndefinedContentsAreInvisible :
    (nextIsAligned { halfDefinedDoes (hostRead small .data) with widx := 1 } ∧
      usesUndefined { halfDefinedDoes (hostRead small .data) with widx := 1 } 0) ∧
    (nextIsAligned (halfDefinedDoes (hostRead small .nbits)) ∧
      usesUndefined (halfDefinedDoes (hostRead small .nbits)) 0) ∧
    (nextIsAligned (halfDefinedDoes (hostIssue small (.mov 1 0))) ∧
      usesUndefined (halfDefinedDoes (hostIssue small (.mov 1 0))) 0) ∧
    (nextIsAligned (halfDefined 0) ∧ ¬ ∃ r, usesUndefined (halfDefined 0) r) ∧
    (halfDefined 0).Inv ∧ (halfDefined 9).Inv ∧ Safety.sameDefined (halfDefined 0) (halfDefined 9) ∧
    ∃ s', Safety.strictStep (halfDefined 0) = .next s' := by
  refine ⟨⟨aligned_read _ .data (by decide) _ rfl, rfl, .inl ⟨⟨_, _, _, rfl, by decide, by decide⟩, rfl, ?_⟩⟩,
    ⟨aligned_read _ .nbits (by decide) _ rfl, rfl, .inr (.inl ⟨⟨_, _, _, rfl, by decide, by decide⟩, rfl, ?_⟩)⟩,
    ⟨aligned_write _ .cmd _ (by decide) _ rfl, rfl, .inr (.inr ⟨_, .mov 1 0, ⟨_, _, _, rfl, by decide, by decide⟩, ?_⟩)⟩,
    ⟨aligned_read _ .data (by decide) _ rfl, ?_⟩, by decide, by decide, ⟨rfl, rfl, by decide⟩, _, rfl⟩
  · decide
  · decide
  · decide
  · rintro ⟨r, -, ⟨-, rfl, -, -, h⟩ | ⟨⟨a, z, rest, hi, -, hr⟩, -⟩ | ⟨w, i, ⟨a, z, rest, hi, -⟩, -⟩⟩
    · revert h; decide
    · obtain ⟨⟨rfl, rfl⟩, rfl⟩ : (small.base + WinReg.data.offset = a ∧ Size.word = z) ∧ rest = [] := by
        simpa [halfDefined, hostRead] using hi
      revert hr; decide
    · simp [halfDefined, hostRead] at hi

end Sys2Proof.Tests
end

namespace Sys2Proof.Proofs

open Sys2Proof.Machine Sys2Proof.Claims

/-! # 00_scope.md: the significant bit length, and the invariant

The invariant is kept because every result a command writes fits in CAPBITS bits: the first part bounds the results, the
second follows a completion, the third a host access. -/

/-! ## The significant bit length (R12) -/

theorem nbits_pos {v : Nat} (h : v ≠ 0) : 0 < nbits v := lt_nbits_iff.2 (Nat.pos_of_ne_zero h)

/-- Bit nbits(v) - 1 is set, for 2^(nbits(v) - 1) ≤ v < 2^nbits(v). -/
theorem testBit_nbits_sub_one {v : Nat} (h : v ≠ 0) : v.testBit (nbits v - 1) = true := by
  have hpos := nbits_pos h
  apply Nat.testBit_of_two_pow_le_and_two_pow_add_one_gt
  · exact lt_nbits_iff.1 (by omega)
  · rw [Nat.sub_add_cancel hpos]; exact lt_two_pow_nbits v

theorem testBit_of_nbits_le {v k : Nat} (h : nbits v ≤ k) : v.testBit k = false :=
  Nat.testBit_lt_two_pow (nbits_le_iff.1 h)

/-- Settles O26, from the bounds 2^(nbits(v) - 1) ≤ v < 2^nbits(v). -/
theorem nbitsIsLeastBound : Obligations.NbitsIsLeastBound :=
  ⟨nbits_zero, fun v => ⟨lt_two_pow_nbits v, fun _ => nbits_le, fun hv =>
    ⟨testBit_nbits_sub_one hv, fun _ => testBit_of_nbits_le⟩⟩⟩

/-! ## The base case: power-on (R220) -/

theorem powerOn_inv {p : Params} (h : p.wf) : (State.powerOn p).Inv := by
  refine ⟨h, by simp [State.powerOn], fun r hr => ?_, by simp [State.pendingOk, State.powerOn]⟩
  rw [List.eq_of_mem_replicate hr]
  exact OpReg.powerOn_wf p

/-- Settles O37: the default parameters are legal, and every legal instance powers on in the invariant. -/
theorem powerOnMeetsInvariant : Obligations.PowerOnMeetsInvariant :=
  ⟨powerOn_inv (by decide), fun _ => powerOn_inv⟩

/-! ## Every result fits (R9, R20)

A capacity of at least 32 bits holds every immediate, and the results of the commands that raise no OVERFLOW are no longer
than an operand. -/

theorem immValue_lt_bound {p : Params} (h : p.wf) (imm : Imm16) : immValue imm < p.bound := by
  obtain ⟨-, -, hcap, -, -⟩ := h
  calc immValue imm < 2 ^ 16 := imm.isLt
    _ ≤ p.bound := Nat.pow_le_pow_right (by omega) (by unfold Params.capBits; omega)

/-- A value below 2^CAPBITS is at most CAPBITS bits long. -/
theorem two_pow_nbits_le_bound {p : Params} {v : Nat} (h : v < p.bound) : 2 ^ nbits v ≤ p.bound :=
  Nat.pow_le_pow_right (by omega) (nbits_le h)

/-- The subtractor's result is no longer than the minuend (R104). -/
theorem complementSub_lt (a b : Nat) : complementSub a b < 2 ^ nbits a := Nat.mod_lt _ (by positivity)

/-- Long division over all bits of the dividend (R150). -/
theorem quadDiv_eq {a b : Nat} (hb : b ≠ 0) : quadDiv a b = (a / b, a % b) :=
  quadDivBits_eq _ a b (Nat.pos_of_ne_zero hb) (lt_two_pow_nbits a)

theorem reduce_lt (a : Nat) {m : Nat} (hm : m ≠ 0) : reduce a m < m := by
  rw [reduce_eq a m (Nat.pos_of_ne_zero hm)]
  exact Nat.mod_lt a (Nat.pos_of_ne_zero hm)

/-- Below the modulus, or the unreduced 1 of exponent 0 (R170, C1). -/
theorem modExp_le (a e : Nat) {m : Nat} (hm : m ≠ 0) : modExp a e m ≤ m := by
  have hpos := Nat.pos_of_ne_zero hm
  rw [modExp, modExpBits_eq _ a e m hpos (lt_two_pow_nbits e)]
  split
  · exact hpos
  · exact (Nat.mod_lt _ hpos).le

/-! ## A completion keeps the invariant (R42) -/

/-- A completion that writes two values that fit keeps the invariant: the first write alone does, and the rest of a
completion overwrites or leaves what the invariant reads. -/
theorem inv_write_write {s : State} (h : s.Inv) (rd rd' : RegIdx) {v v' : Nat} (hv : v < s.params.bound)
    (hv' : v' < s.params.bound) : (((s.writeX rd v).writeX rd' v').complete .none).Inv :=
  inv_write (s := { (s.writeX rd v).complete .none with irqStatus := s.irqStatus }) (inv_write h rd hv .none) rd' hv' .none

theorem inv_raise {s t : State} {e : ErrCode} (hs : s.Inv) (h : s.raise e = .next t) : t.Inv := by
  rw [raise_next h]; exact inv_complete hs e

theorem inv_finish {s t : State} {rd : RegIdx} {v : Nat} (hs : s.Inv) (hv : v < s.params.bound)
    (h : s.finish rd v = .next t) : t.Inv := by
  rw [finish_next h]; exact inv_write hs rd hv .none

/-- Whatever the result: one that does not fit is not written (R193). -/
theorem inv_finishFitting {s t : State} {rd : RegIdx} {v : Nat} (hs : s.Inv) (h : s.finishFitting rd v = .next t) :
    t.Inv := by
  unfold State.finishFitting at h
  split at h
  case isTrue => exact inv_raise hs h
  case isFalse hfit => exact inv_finish hs (not_le.1 hfit) h

theorem inv_finishModular {s t : State} {rd : RegIdx} {m v : Nat} (hs : s.Inv) (hv : m ≠ 0 → v < s.params.bound)
    (h : s.finishModular rd m v = .next t) : t.Inv := by
  unfold State.finishModular at h
  split at h
  case isTrue => exact inv_raise hs h
  case isFalse hm => exact inv_finish hs (hv hm) h

/-- A command that writes a value reduced by an operand keeps the invariant (R165). -/
theorem inv_finishModular_reduce {s t : State} {rd r : RegIdx} {k a : Nat} (hs : s.Inv)
    (h : s.finishModular rd (s.operand k r) (reduce a (s.operand k r)) = .next t) : t.Inv :=
  inv_finishModular hs (fun hm => (reduce_lt a hm).trans (operand_lt hs k r)) h

theorem inv_execSub {rd rs1 rs2 : RegIdx} {s t : State} (hs : s.Inv) (h : execSub rd rs1 rs2 s = .next t) : t.Inv := by
  unfold execSub at h
  split at h
  case isTrue => exact inv_raise hs h
  case isFalse =>
    exact inv_finish hs ((complementSub_lt _ _).trans_le (two_pow_nbits_le_bound (operand_lt hs 0 rs1))) h

theorem inv_execDiv {rd rs1 rs2 rs3 : RegIdx} {s t : State} (hs : s.Inv) (h : execDiv rd rs1 rs2 rs3 s = .next t) :
    t.Inv := by
  unfold execDiv at h
  split at h
  case isTrue => exact inv_raise hs h
  case isFalse hb =>
    rw [finish_next h, quadDiv_eq hb]
    have ha := operand_lt hs 0 rs1
    exact inv_write_write hs rd rs3 ((Nat.div_le_self _ _).trans_lt ha) ((Nat.mod_le _ _).trans_lt ha)

theorem inv_execMod {rd rs1 rs2 : RegIdx} {s t : State} (hs : s.Inv) (h : execMod rd rs1 rs2 s = .next t) : t.Inv := by
  unfold execMod at h
  split at h
  case isTrue => exact inv_raise hs h
  case isFalse hb => exact inv_finish hs ((reduce_lt _ hb).trans (operand_lt hs 1 rs2)) h

/-- Every command keeps the invariant. -/
theorem inv_exec {i : Instr} {s t : State} (hs : s.Inv) (h : exec i s = .next t) : t.Inv := by
  have ha := operand_lt hs 0
  cases i with
  | add rd rs1 rs2 => exact inv_finishFitting hs h
  | addt rd rs1 rs2 =>
    exact inv_finish hs ((Nat.mod_lt _ (by positivity)).trans_le (two_pow_nbits_le_bound (ha rs1))) h
  | sub rd rs1 rs2 => exact inv_execSub hs h
  | shl rd rs1 imm => exact inv_finishFitting hs h
  | shr rd rs1 imm => exact inv_finish hs (Nat.shiftRight_le _ _ |>.trans_lt (ha rs1)) h
  | and rd rs1 rs2 => exact inv_finish hs (Nat.and_le_left.trans_lt (ha rs1)) h
  | cmp rs1 rs2 =>
    obtain rfl : _ = t := Host.Outcome.next.inj h
    exact inv_complete (s := { s with cmp := _ }) hs .none
  | mov rd rs1 => exact inv_finish hs (ha rs1) h
  | ldi rd imm => exact inv_finish hs (immValue_lt_bound hs.1 imm) h
  | mul rd rs1 rs2 => exact inv_finishFitting hs h
  | mulk rd rs1 rs2 => exact inv_finishFitting hs h
  | mult rd rs1 rs2 => exact inv_finishFitting hs h
  | div rd rs1 rs2 rs3 => exact inv_execDiv hs h
  | mod rd rs1 rs2 => exact inv_execMod hs h
  | modadd rd rs1 rs2 rs3 => exact inv_finishModular_reduce hs h
  | modmul rd rs1 rs2 rs3 => exact inv_finishModular_reduce hs h
  | modmulk rd rs1 rs2 rs3 => exact inv_finishModular_reduce hs h
  | modmult rd rs1 rs2 rs3 => exact inv_finishModular_reduce hs h
  | modexp rd rs1 rs2 rs3 =>
    exact inv_finishModular hs (fun hm => (modExp_le _ _ hm).trans_lt (operand_lt hs 2 rs3)) h

theorem inv_coreTurn {s t : State} (hs : s.Inv) (h : coreTurn s = .next t) : t.Inv := by
  rcases hp : s.pending with _ | ⟨_ | i, ops⟩
  case none => rw [coreTurn_idle hp] at h; exact Host.Outcome.next.inj h ▸ hs
  case some.illegal => rw [coreTurn_illegal hp] at h; exact Host.Outcome.next.inj h ▸ inv_complete hs .illegal
  case some.command => rw [coreTurn_command hp] at h; exact inv_exec hs h

/-! ## A host access or a reset keeps the invariant -/

/-- The invariant reads no field that a host read changes. -/
theorem inv_readWin {s : State} (hs : s.Inv) (r : WinReg) : (s.readWin r).2.Inv := by
  rw [readWin_frame]; exact hs

/-- A register that is legal stays so when a data word it has is written (R56). -/
theorem setWord_wf {p : Params} {r : OpReg} (h : r.wf p) {k : Nat} (hk : k < p.capWords) (w : Word) :
    (r.setWord k w).wf p := by
  obtain ⟨hv, hrise, hin⟩ := h
  refine ⟨setWord_lt w hk hv, rising_filter _ _ hrise, ?_⟩
  rw [List.all_eq_true] at hin ⊢
  exact fun j hj => hin j (List.mem_of_mem_filter hj)

/-- While the core is Idle a register may be replaced by any legal one: no sampled operand has to agree with it. -/
theorem inv_setReg_idle {s : State} (hs : s.Inv) (hp : s.pending = none) (k : Nat) {r : OpReg} (hr : r.wf s.params) :
    State.Inv { s with x := s.x.set k r } := by
  obtain ⟨hparams, hlen, hregs, -⟩ := hs
  refine ⟨hparams, by simpa using hlen, fun q hq => ?_, by simp [State.pendingOk, hp]⟩
  rcases List.mem_or_eq_of_mem_set hq with hq | rfl
  · exact hregs q hq
  · exact hr

/-- Every operand register the instance has is legal. -/
theorem reg_wf {s : State} (hs : s.Inv) {i : RegIdx} (hi : i.toNat < s.params.nreg) : (s.reg i).wf s.params := by
  obtain ⟨-, hlen, hregs, -⟩ := hs
  rw [State.reg, List.getD_eq_getElem _ _ (hlen ▸ hi)]
  exact hregs _ (List.getElem_mem _)

theorem inv_writeData {s : State} (hs : s.Inv) (w : Word) : (s.writeData w).Inv := by
  unfold State.writeData
  split
  case isTrue => exact hs
  case isFalse hb =>
    split
    case isFalse => exact hs
    case isTrue hsel =>
      obtain ⟨hreg, hword⟩ : s.rsel.toNat < s.params.nreg ∧ s.widx.toNat < s.params.capWords := by
        simpa [State.selectsWord] using hsel
      exact inv_setReg_idle hs (not_busy_iff.1 (by simpa using hb)) _ (setWord_wf (reg_wf hs hreg) hword w)

/-- Acceptance puts in flight what CMD's word decodes to (R40, R41). -/
theorem inv_issue {s : State} (hs : s.Inv) (w : Word) : (s.issue w).Inv := by
  unfold State.issue
  split
  case isTrue => exact hs
  case isFalse =>
    obtain ⟨hparams, hlen, hregs, -⟩ := hs
    refine ⟨hparams, hlen, hregs, fun p hp => ?_⟩
    obtain rfl : _ = p := by simpa using hp
    exact ⟨rfl, rfl, rfl⟩

theorem inv_softReset {s : State} (hs : s.Inv) : s.softReset.Inv := by
  obtain ⟨hparams, hlen, hregs, -⟩ := hs
  exact ⟨hparams, hlen, hregs, by simp [State.pendingOk]⟩

theorem inv_writeWin {s : State} (hs : s.Inv) (w : Word) (r : WinReg) : (s.writeWin w r).Inv := by
  cases r with
  | ctrl =>
    simp only [State.writeWin, State.writeCtrl]
    split
    · exact inv_softReset hs
    · exact hs
  | cmd => exact inv_issue hs w
  | data => exact inv_writeData hs w
  | id | capbits | nreg | status | irqStatus | irqEnable | rsel | widx | nbits | reserved => exact hs

/-- Power-on reset keeps the parameters and gives the rest the values of the base case. -/
theorem inv_powerOnReset {s : State} (hs : s.Inv) : s.powerOnReset.Inv := powerOn_inv hs.1

/-! ## Every step keeps the invariant -/

/-- Settles O38, by the inversion of a step: the core's turn, a reset, a host read, a host write. -/
theorem stepKeepsInvariant : Obligations.StepKeepsInvariant := by
  intro s t hs h
  -- The inputs to come are no part of the invariant.
  have hrest (rest : List Input) : State.Inv { s with inputs := rest } := hs
  cases step_cases h with
  | core rest _ h => exact inv_coreTurn (hrest rest) h
  | reset rest _ h => rw [h]; exact inv_powerOnReset (hrest rest)
  | read addr _ rest _ _ h => rw [h]; exact inv_readWin (hrest rest) (s.winReg addr)
  | write addr _ w rest _ _ h => rw [h]; exact inv_writeWin (hrest rest) w (s.winReg addr)

end Sys2Proof.Proofs

namespace Sys2Proof.Proofs

open Sys2Proof.Machine Sys2Proof.Machine.Safety Sys2Proof.Claims

/-! # 10_state.md: who reads and who writes each part of the state -/

/-! ## A legal word is the encoding of its command (R76 to R81)

The mask of a row keeps the opcode, the function and every field that must be zero, so a word that passes it is its match
value with the word's own register fields (and immediate) put in. -/

section
variable {w k : Word} {op : BitVec 5} {fn : BitVec 3}

/-- Under a mask that keeps OP, FN and Z, a word of format R is put together from its fields again. -/
theorem formatR_of_mask (hk : k &&& 0xff0000ff#32 = 0xff0000ff#32) (hm : w &&& k = formatR op fn 0 0 0 0) :
    formatR op fn (rdField w) (rs1Field w) (rs2Field w) (rs3Field w) = w := by
  have hkept (i : Nat) (hi : (0xff0000ff#32).getLsbD i = true) : k.getLsbD i = true :=
    (bit_of_mask hk i hi).trans hi
  have hop : opField w = op := (field_of hm 27 5 fun i hi => hkept _ (by revert i; decide)).trans (opField_formatR ..)
  have hfn : fnField w = fn := (field_of hm 24 3 fun i hi => hkept _ (by revert i; decide)).trans (fnField_formatR ..)
  have hz : w.extractLsb' 0 8 = 0#8 := by
    rw [field_of hm 0 8 fun i hi => hkept _ (by revert i; decide)]
    apply BitVec.eq_of_getLsbD_eq
    intro i hi
    simp [formatR_bit, hi]
  rw [← hop, ← hfn, word_bits_formatR hz]

/-- Under a mask that keeps OP and FN = 000, a word of format I is put together from its fields again. -/
theorem formatI_of_mask (hk : k &&& 0xff000000#32 = 0xff000000#32) (hm : w &&& k = formatI op 0 0 0) :
    formatI op (rdField w) (rs1Field w) (immField w) = w := by
  have hkept (i : Nat) (hi : (0xff000000#32).getLsbD i = true) : k.getLsbD i = true :=
    (bit_of_mask hk i hi).trans hi
  have hop : opField w = op := (field_of hm 27 5 fun i hi => hkept _ (by revert i; decide)).trans (opField_formatI ..)
  have hfn : fnField w = 0#3 := (field_of hm 24 3 fun i hi => hkept _ (by revert i; decide)).trans (fnField_formatI ..)
  rw [← hop, word_bits_formatI hfn]

/-- The masks of the commands with three register fields keep RS3 = 0. -/
theorem formatR_of_mask_rs3 (hm : w &&& 0xff000fff#32 = formatR op fn 0 0 0 0) :
    formatR op fn (rdField w) (rs1Field w) (rs2Field w) 0 = w := by
  have hrs3 : rs3Field w = 0 := (field_of hm 8 4 (by decide)).trans (rs3Field_formatR ..)
  simpa [hrs3] using formatR_of_mask (by decide) hm

/-- The mask of CMP keeps RD = 0 too. -/
theorem formatR_of_mask_cmp (hm : w &&& 0xfff00fff#32 = formatR op fn 0 0 0 0) :
    formatR op fn 0 (rs1Field w) (rs2Field w) 0 = w := by
  have hrd : rdField w = 0 := (field_of hm 20 4 (by decide)).trans (rdField_formatR ..)
  have hrs3 : rs3Field w = 0 := (field_of hm 8 4 (by decide)).trans (rs3Field_formatR ..)
  simpa [hrd, hrs3] using formatR_of_mask (by decide) hm

/-- The mask of MOV keeps RS2 = 0 too. -/
theorem formatR_of_mask_mov (hm : w &&& 0xff00ffff#32 = formatR op fn 0 0 0 0) :
    formatR op fn (rdField w) (rs1Field w) 0 0 = w := by
  have hrs2 : rs2Field w = 0 := (field_of hm 12 4 (by decide)).trans (rs2Field_formatR ..)
  have hrs3 : rs3Field w = 0 := (field_of hm 8 4 (by decide)).trans (rs3Field_formatR ..)
  simpa [hrs2, hrs3] using formatR_of_mask (by decide) hm

/-- The mask of LDI keeps RS1 = 0. -/
theorem formatI_of_mask_ldi (hm : w &&& 0xff0f0000#32 = formatI op 0 0 0) :
    formatI op (rdField w) 0 (immField w) = w := by
  have hrs1 : rs1Field w = 0 := (field_of hm 16 4 (by decide)).trans (rs1Field_formatI ..)
  simpa [hrs1] using formatI_of_mask (by decide) hm

end

/-- A word that passes the mask of its row is the encoding of the row's command. -/
theorem encode_opcodeRow {w : Word} {row : Row} (h : opcodeRow w = some row) (hm : w &&& row.mask = row.mtch) :
    encode row.instr = w := by
  unfold opcodeRow at h
  split at h
  case h_20 => cases h
  all_goals obtain rfl := Option.some.inj h
  case h_1 | h_2 | h_3 | h_6 | h_10 | h_11 | h_12 | h_14 => exact formatR_of_mask_rs3 hm
  case h_4 | h_5 => exact formatI_of_mask (k := 0xff000000#32) (by decide) hm
  case h_7 => exact formatR_of_mask_cmp hm
  case h_8 => exact formatR_of_mask_mov hm
  case h_9 => exact formatI_of_mask_ldi hm
  case h_13 | h_15 | h_16 | h_17 | h_18 | h_19 =>
    exact formatR_of_mask (k := 0xff0000ff#32) (by decide) hm

/-- Every bit of a legal word is a bit of its command, and the command is well-formed (R80, R88). -/
theorem encode_of_decode {nreg : Nat} {w : Word} {i : Instr} (h : decode nreg w = .legal i) :
    encode i = w ∧ i.wf nreg = true := by
  obtain ⟨row, hrow, hm, rfl, hwf⟩ := row_of_decode h
  exact ⟨encode_opcodeRow hrow hm, hwf⟩

/-! ## The command in flight is what CMD holds (R35, R41) -/

/-- In a state that meets the invariant, the command in flight is CMD's word decoded, and its operands are its samples. -/
theorem decode_of_running {s : State} {i : Instr} {ops : List Nat} (hs : s.Inv) (h : Running s i ops) :
    decode s.params.nreg s.cmd = .legal i ∧ ops = s.sample i := by
  obtain ⟨-, -, -, hpend⟩ := hs
  obtain ⟨hwork, hops, -⟩ := hpend _ h
  cases hd : decode s.params.nreg s.cmd with
  | illegal why => simp [hd, workOf] at hwork
  | legal j =>
    rw [hd] at hwork hops
    obtain rfl : i = j := by simpa [workOf] using hwork
    exact ⟨rfl, hops⟩

/-- Settles O39: CMD's word decodes to the command in flight, and a word that decodes is the encoding of its command. -/
theorem sampledOperandsAreRegisterValues : Obligations.SampledOperandsAreRegisterValues := by
  intro s i ops hs h
  obtain ⟨hd, hops⟩ := decode_of_running hs h
  obtain ⟨hencode, hwf⟩ := encode_of_decode hd
  exact ⟨hops, hwf, hencode⟩

/-! ## The core's turn is the step that completes a command (R40, R42, R63) -/

/-- With a core turn next, or with no input left, the core has its turn (R63, R231). -/
theorem step_of_coreTurn {s : State} {rest : List Input} (hi : s.inputs = [] ∧ rest = [] ∨ s.inputs = .core :: rest) :
    step s = coreTurn { s with inputs := rest } := by
  obtain ⟨hi, rfl⟩ | hi := hi
  · rw [step_of_nil hi, ← hi]
  · exact step_of_cons hi

theorem step_of_completes {s : State} (h : s.completes) : ∃ rest, step s = coreTurn { s with inputs := rest } := by
  obtain ⟨-, hi | hi⟩ := h
  · exact ⟨[], step_of_coreTurn (.inl ⟨hi, rfl⟩)⟩
  · obtain ⟨rest, hi⟩ := List.head?_eq_some_iff.1 hi
    exact ⟨rest, step_of_coreTurn (.inr hi)⟩

/-- The pending command after the acceptance of a legal word. -/
theorem running_accept {s : State} {w : Word} {i : Instr} (h : decode s.params.nreg w = .legal i) :
    Running (s.accept w) i (s.sample i) := by
  rw [Running, State.accept_pending, h]; rfl

/-- Settles O34: in each case the step is the core's turn, and a core turn runs the command in flight, if there is one. -/
theorem stepRunsPendingCommand : Obligations.StepRunsPendingCommand := by
  refine ⟨fun s nb w i hd => ?_, fun s i ops rest hrun hi => ?_, fun s i ops hrun hi => ?_, fun s rest hp hi => ?_⟩
  · exact (step_of_coreTurn (.inr (State.withCommand_inputs ..))).trans (coreTurn_command (running_accept hd))
  · exact (step_of_coreTurn (.inr hi)).trans (coreTurn_command hrun)
  · exact (step_of_nil hi).trans (coreTurn_command hrun)
  · exact (step_of_coreTurn (.inr hi)).trans (coreTurn_idle hp)

/-! ## The strict machine stops exactly at a use of an undefined word (R24, U1) -/

section
variable {s : State} {a : Access} {r : RegIdx}

/-- An aligned access of the window passes the strict machine's width check (R52). -/
theorem wordAccess_of_aligned (hal : nextIsAligned s) (ha : nextAccess s = some a) : wordAccess a = true := by
  obtain ⟨addr, size, rest, rfl, hi, -⟩ | ⟨addr, size, w, rest, rfl, hi, -⟩ := nextAccess_some ha
  · obtain ⟨rfl, hmod⟩ := hal addr size rest (.inl hi)
    simp [wordAccess, hmod]
  · obtain ⟨rfl, hmod⟩ := hal addr size rest (.inr ⟨w, hi⟩)
    simp [wordAccess, hmod]

/-- A register that the strict machine names is used undefined. -/
theorem usesUndefined_of_undefinedUse (ha : nextAccess s = some a) (hu : undefinedUse s a = some r) :
    usesUndefined s r := by
  unfold undefinedUse at hu
  split at hu
  case isTrue => cases hu
  case isFalse hbusy =>
    refine ⟨not_busy_iff.1 (by simpa using hbusy), ?_⟩
    obtain ⟨addr, size, rest, rfl, hi, hw⟩ | ⟨addr, size, w, rest, rfl, hi, hw⟩ := nextAccess_some ha
    · cases hr : s.winReg addr <;> simp [hr] at hu
      case data =>
        obtain ⟨⟨hsel, hundef⟩, rfl⟩ := hu
        simp [State.selectsWord] at hsel
        exact .inl ⟨(reads_iff hi hw).2 hr, rfl, hsel.1, hsel.2, hundef⟩
      case nbits =>
        obtain ⟨⟨hreg, hundef⟩, rfl⟩ := hu
        exact .inr (.inl ⟨(reads_iff hi hw).2 hr, rfl, hreg, by simpa [OpReg.isDefined] using hundef⟩)
    · cases hr : s.winReg addr <;> simp [hr] at hu
      case cmd =>
        cases hd : decode s.params.nreg w with
        | illegal why => simp [undefinedSource, hd] at hu
        | legal i => exact .inr (.inr ⟨w, i, (writes_iff hi hw).2 ⟨hr, rfl⟩, hd, undefinedSource_some hd hu⟩)

/-- At a use of an undefined word the strict machine names a register. -/
theorem undefinedUse_of_usesUndefined (h : usesUndefined s r) :
    ∃ a r', nextAccess s = some a ∧ undefinedUse s a = some r' := by
  obtain ⟨hp, ⟨⟨addr, size, rest, hi, hw, hr⟩, rfl, hreg, hword, hundef⟩ |
    ⟨⟨addr, size, rest, hi, hw, hr⟩, rfl, hreg, hundef⟩ | ⟨w, i, ⟨addr, size, rest, hi, hw, hr⟩, hd, hsrc, hundef⟩⟩ := h
  · refine ⟨_, s.rsel, nextAccess_read hi hw, ?_⟩
    simp [undefinedUse, not_busy_iff.2 hp, hr, State.selectsWord, hreg, hword, hundef]
  · refine ⟨_, s.rsel, nextAccess_read hi hw, ?_⟩
    simp [undefinedUse, not_busy_iff.2 hp, hr, hreg, OpReg.isDefined, hundef]
  · have hsome : undefinedSource s w ≠ none := fun hnone => hundef ((undefinedSource_none hd).1 hnone r hsrc)
    obtain ⟨r', hr'⟩ := Option.ne_none_iff_exists'.1 hsome
    exact ⟨_, r', nextAccess_write hi hw, by simp [undefinedUse, not_busy_iff.2 hp, hr, hr']⟩

theorem strictStep_of_usesUndefined (hal : nextIsAligned s) (h : usesUndefined s r) :
    ∃ r', usesUndefined s r' ∧ strictStep s = .fault (.undefinedUse r') := by
  obtain ⟨a, r', ha, hu⟩ := undefinedUse_of_usesUndefined h
  exact ⟨r', usesUndefined_of_undefinedUse ha hu, strictStep_of_undefined ha (wordAccess_of_aligned hal ha) hu⟩

theorem strictStep_of_not_usesUndefined (hal : nextIsAligned s) (h : ¬ ∃ r, usesUndefined s r) :
    strictStep s = step s := by
  cases ha : nextAccess s with
  | none => exact strictStep_of_noAccess ha
  | some a =>
    cases hu : undefinedUse s a with
    | none => exact strictStep_of_defined ha (wordAccess_of_aligned hal ha) hu
    | some r => exact absurd ⟨r, usesUndefined_of_undefinedUse ha hu⟩ h

/-- The strict machine goes on exactly as `step` does, at accesses that are aligned and use no undefined word. -/
theorem strictStep_eq_next_iff {s' : State} : strictStep s = .next s' ↔
    step s = .next s' ∧ ∀ a, nextAccess s = some a → wordAccess a = true ∧ undefinedUse s a = none := by
  cases ha : nextAccess s with
  | none => simp [strictStep_of_noAccess ha]
  | some a =>
    cases hw : wordAccess a with
    | false => cases a <;> simp [strictStep, ha, hw]
    | true =>
      cases hu : undefinedUse s a with
      | none => simp [strictStep_of_defined ha hw hu, hw, hu]
      | some r => simp [strictStep_of_undefined ha hw hu, hu]

end

/-! ## Two states that differ only in undefined words

What the machine reads of them is the same: the parameters, the hidden state, the definedness of every register, and the
value of every register that is defined. -/

section
variable {s t : State}

theorem sameDefined_params (h : sameDefined s t) : t.params = s.params := by rw [← h.1]

theorem sameDefined_pending (h : sameDefined s t) : t.pending = s.pending := by rw [← h.1]

theorem sameDefined_busy (h : sameDefined s t) : t.busy = s.busy := by rw [← h.1]; rfl

theorem sameDefined_rsel (h : sameDefined s t) : t.rsel = s.rsel := by rw [← h.1]

theorem sameDefined_widx (h : sameDefined s t) : t.widx = s.widx := by rw [← h.1]

theorem sameDefined_winReg (h : sameDefined s t) (addr : Nat) : t.winReg addr = s.winReg addr := by rw [← h.1]; rfl

theorem sameDefined_selectsWord (h : sameDefined s t) : t.selectsWord = s.selectsWord := by rw [← h.1]; rfl

/-- Every register name reads alike, those that name no register included. -/
theorem sameDefined_reg (hs : s.Inv) (h : sameDefined s t) (i : RegIdx) : sameRegDefined s.params (s.reg i) (t.reg i) := by
  obtain ⟨-, hlen, hregs⟩ := h
  obtain ⟨-, hnreg, -, -⟩ := hs
  by_cases hi : i.toNat < s.params.nreg
  · exact hregs i hi
  · have hnone : s.reg i = OpReg.written 0 := List.getD_eq_default _ _ (by omega)
    have hnone' : t.reg i = OpReg.written 0 := List.getD_eq_default _ _ (by omega)
    rw [hnone, hnone']
    exact ⟨rfl, fun _ _ _ => rfl⟩

/-- A value is its words, so two defined registers that agree are equal (R54). -/
theorem val_eq_of_defined (hs : s.Inv) (ht : t.Inv) (h : sameDefined s t) {i : RegIdx} (hd : (s.reg i).undef = []) :
    t.val i = s.val i := by
  obtain ⟨-, hwords⟩ := sameDefined_reg hs h i
  have hbound : t.val i < s.params.bound := sameDefined_params h ▸ val_lt ht i
  exact (eq_of_words (val_lt hs i) hbound fun k hk => hwords k hk (by simp [hd])).symm

theorem nextAccess_congr (h : sameDefined s t) : nextAccess t = nextAccess s := by rw [← h.1]; rfl

theorem undefinedSource_congr (hs : s.Inv) (h : sameDefined s t) (w : Word) :
    undefinedSource t w = undefinedSource s w := by
  have hdef (i : RegIdx) : (t.reg i).isDefined = (s.reg i).isDefined := by
    rw [OpReg.isDefined, OpReg.isDefined, (sameDefined_reg hs h i).1]
  simp only [undefinedSource, sameDefined_params h, hdef]

theorem undefinedUse_congr (hs : s.Inv) (h : sameDefined s t) (a : Access) : undefinedUse t a = undefinedUse s a := by
  have hundef : (t.reg s.rsel).undef = (s.reg s.rsel).undef := (sameDefined_reg hs h s.rsel).1.symm
  cases a with
  | read addr size =>
    rw [undefinedUse, undefinedUse, sameDefined_busy h, sameDefined_winReg h, sameDefined_selectsWord h,
      sameDefined_rsel h, sameDefined_widx h, sameDefined_params h, OpReg.isDefined, OpReg.isDefined, hundef]
  | write addr size w =>
    rw [undefinedUse, undefinedUse, sameDefined_busy h, sameDefined_winReg h, undefinedSource_congr hs h]

/-- The sampled operands of a command whose sources are defined (R41). -/
theorem sampleFor_congr (hs : s.Inv) (ht : t.Inv) (h : sameDefined s t) {w : Word} (hdef : undefinedSource s w = none) :
    t.sampleFor (decode s.params.nreg w) = s.sampleFor (decode s.params.nreg w) := by
  cases hd : decode s.params.nreg w with
  | illegal why => rfl
  | legal i =>
    exact List.map_congr_left fun r hr => val_eq_of_defined hs ht h ((undefinedSource_none hd).1 hdef r hr)

/-- A host read answers alike, unless it uses an undefined word (R24, R55, R58). -/
theorem readWin_value_congr (hs : s.Inv) (ht : t.Inv) (h : sameDefined s t) {addr : Nat} {size : Size}
    (hdef : undefinedUse s (.read addr size) = none) :
    (t.readWin (s.winReg addr)).1 = (s.readWin (s.winReg addr)).1 := by
  cases hr : s.winReg addr
  case data =>
    simp only [State.readWin, State.readData, sameDefined_busy h, sameDefined_selectsWord h, sameDefined_rsel h,
      sameDefined_widx h]
    cases hb : s.busy
    case true => rfl
    case false =>
      cases hsel : s.selectsWord
      case false => rfl
      case true =>
        have hword : s.widx.toNat ∉ (s.reg s.rsel).undef := by simpa [undefinedUse, hb, hr, hsel] using hdef
        have hcap : s.widx.toNat < s.params.capWords := by simp_all [State.selectsWord]
        exact ((sameDefined_reg hs h s.rsel).2 _ hcap hword).symm
  case nbits =>
    simp only [State.readWin, State.readNbits, sameDefined_busy h, sameDefined_rsel h, sameDefined_params h]
    cases hb : s.busy
    case true => rfl
    case false =>
      by_cases hreg : s.rsel.toNat < s.params.nreg
      · have hundef : (s.reg s.rsel).undef = [] := by
          simpa [undefinedUse, hb, hr, hreg, OpReg.isDefined] using hdef
        simp [hreg, val_eq_of_defined hs ht h hundef]
      · simp [hreg]
  all_goals rw [← h.1]; rfl

end

/-! ## A step keeps two such states alike -/

/-- f neither reads nor changes the operand registers, and keeps the parameters. -/
def IgnoresRegs (f : State → State) : Prop :=
  ∀ (u : State) (xs : List OpReg), f { u with x := xs } = { f u with x := xs } ∧ (f u).params = u.params

theorem ignoresRegs_readWin (r : WinReg) (v : Word) : IgnoresRegs fun u => (u.readWin r).2.respond v := by
  intro u xs
  dsimp only
  rw [readWin_frame u, readWin_frame { u with x := xs }, readWin_widx, readWin_widx, readWin_irqStatus, readWin_irqStatus]
  exact ⟨rfl, rfl⟩

theorem ignoresRegs_writeCtrl (w : Word) : IgnoresRegs (State.writeCtrl · w) := by
  intro u xs
  cases hw : w.getLsbD 0 <;> simp only [State.writeCtrl, hw] <;> exact ⟨rfl, rfl⟩

section
variable {s t : State}

theorem sameDefined_map {f : State → State} (hf : IgnoresRegs f) (h : sameDefined s t) : sameDefined (f s) (f t) := by
  have hx (u : State) : (f u).x = u.x := by rw [show f u = { f u with x := u.x } from (hf u u.x).1]
  obtain ⟨hrest, hlen, hregs⟩ := h
  refine ⟨?_, by rwa [hx, hx], fun i hi => ?_⟩
  · rw [hx, ← (hf s t.x).1, hrest]
  · rw [(hf s s.x).2] at hi ⊢
    simpa only [State.reg, hx] using hregs i hi

/-- Setting a register to contents that agree where they are defined. -/
theorem sameDefined_set (h : sameDefined s t) (k : Nat) {r q : OpReg} (hrq : sameRegDefined s.params r q) :
    sameDefined { s with x := s.x.set k r } { t with x := t.x.set k q } := by
  obtain ⟨hrest, hlen, hregs⟩ := h
  refine ⟨congrArg (fun u : State => { u with x := t.x.set k q }) hrest, by simpa using hlen, fun i hi => ?_⟩
  have hold := hregs i hi
  simp only [State.reg, List.getD_eq_getElem?_getD, List.getElem?_set, hlen] at hold ⊢
  split
  case isFalse => exact hold
  case isTrue =>
    split
    case isTrue => exact hrq
    case isFalse => exact ⟨rfl, fun _ _ _ => rfl⟩

theorem sameDefined_writeX (h : sameDefined s t) (rd : RegIdx) (v : Nat) : sameDefined (s.writeX rd v) (t.writeX rd v) :=
  sameDefined_set h rd.toNat ⟨rfl, fun _ _ _ => rfl⟩

theorem sameDefined_foldl_writeX (ws : List (RegIdx × Nat)) (h : sameDefined s t) :
    sameDefined (ws.foldl (fun (u : State) w => u.writeX w.1 w.2) s)
      (ws.foldl (fun (u : State) w => u.writeX w.1 w.2) t) := by
  induction ws generalizing s t with
  | nil => exact h
  | cons w ws ih => exact ih (sameDefined_writeX h w.1 w.2)

/-- One effect on both (R42). -/
theorem sameDefined_apply (e : Effect) (h : sameDefined s t) : sameDefined (e.apply s) (e.apply t) := by
  have hcmp : IgnoresRegs fun u => { u with cmp := e.cmp.getD u.cmp } := fun _ _ => ⟨rfl, rfl⟩
  have hcomplete : IgnoresRegs (State.complete · e.code) := fun _ _ => ⟨rfl, rfl⟩
  exact sameDefined_map (f := (State.complete · e.code)) hcomplete (sameDefined_foldl_writeX e.writes (sameDefined_map hcmp h))

/-- The command in flight has its operands sampled, so it does the same in both (R41). -/
theorem sameOperands_of_running {i : Instr} {ops : List Nat} (hs : s.Inv) (h : sameDefined s t) (hrun : Running s i ops) :
    SameOperands i s t := by
  refine ⟨sameDefined_params h, fun k r hk => ?_⟩
  obtain ⟨-, hops⟩ := decode_of_running hs hrun
  have hsampled : ops[k]? = some (s.val r) := by simp [hops, State.sample, hk]
  rw [operand_of_pending ((sameDefined_pending h).trans hrun), operand_of_pending hrun, hsampled]
  rfl

theorem coreTurn_sameDefined {s' : State} (hs : s.Inv) (h : sameDefined s t) (hstep : coreTurn s = .next s') :
    ∃ t', coreTurn t = .next t' ∧ sameDefined s' t' := by
  have hpt := sameDefined_pending h
  rcases hp : s.pending with _ | ⟨_ | i, ops⟩ <;> rw [hp] at hpt
  case none =>
    obtain rfl : s = s' := Host.Outcome.next.inj ((coreTurn_idle hp).symm.trans hstep)
    exact ⟨t, coreTurn_idle hpt, h⟩
  case some.illegal =>
    obtain rfl : s.complete .illegal = s' := Host.Outcome.next.inj ((coreTurn_illegal hp).symm.trans hstep)
    exact ⟨_, coreTurn_illegal hpt, sameDefined_map (f := (State.complete · .illegal)) (fun _ _ => ⟨rfl, rfl⟩) h⟩
  case some.command =>
    obtain ⟨e, he⟩ := exec_effect i s
    rw [coreTurn_command hp, he s SameOperands.rfl] at hstep
    obtain rfl : e.apply s = s' := Host.Outcome.next.inj hstep
    rw [coreTurn_command hpt, he t (sameOperands_of_running hs h hp)]
    exact ⟨_, rfl, sameDefined_apply e h⟩

/-- Acceptance of a command whose sources are defined (R40, R41). -/
theorem sameDefined_accept (hs : s.Inv) (ht : t.Inv) (h : sameDefined s t) {w : Word} (hdef : undefinedSource s w = none) :
    sameDefined (s.accept w) (t.accept w) := by
  have hsample := sampleFor_congr hs ht h hdef
  obtain ⟨hrest, hlen, hregs⟩ := h
  refine ⟨?_, hlen, hregs⟩
  generalize t.x = xs at hrest
  subst hrest
  simp only [State.accept, hsample]

theorem sameDefined_issue (hs : s.Inv) (ht : t.Inv) (h : sameDefined s t) {w : Word}
    (hdef : s.busy = false → undefinedSource s w = none) : sameDefined (s.issue w) (t.issue w) := by
  have hbt : t.busy = s.busy := sameDefined_busy h
  cases hb : s.busy <;> rw [hb] at hbt
  case true =>
    simp only [State.issue, hb, hbt, if_true]
    exact sameDefined_map (f := fun u => { u with irqStatus := u.irqStatus ||| flagOverrun }) (fun _ _ => ⟨rfl, rfl⟩) h
  case false =>
    simp only [State.issue, hb, hbt, Bool.false_eq_true, if_false]
    exact sameDefined_accept hs ht h (hdef hb)

theorem sameRegDefined_setWord {p : Params} {r q : OpReg} (h : sameRegDefined p r q) (k : Nat) (w : Word) :
    sameRegDefined p (r.setWord k w) (q.setWord k w) := by
  obtain ⟨hundef, hwords⟩ := h
  refine ⟨by rw [OpReg.setWord, OpReg.setWord, hundef], fun j hj hdef => ?_⟩
  by_cases hjk : j = k
  · rw [hjk, wordOf_setWord_same, wordOf_setWord_same]
  · rw [wordOf_setWord_other r w hjk, wordOf_setWord_other q w hjk]
    exact hwords j hj fun hmem => hdef ((mem_setWord_undef r k w j).2 ⟨hmem, hjk⟩)

/-- A DATA write defines the same word of the same register, with the same contents (R56). -/
theorem sameDefined_writeData (hs : s.Inv) (h : sameDefined s t) (w : Word) :
    sameDefined (s.writeData w) (t.writeData w) := by
  have hadvance : IgnoresRegs State.advance := fun _ _ => ⟨rfl, rfl⟩
  have hblocked : IgnoresRegs State.blocked := fun _ _ => ⟨rfl, rfl⟩
  obtain ⟨xs, rfl⟩ : ∃ xs, t = { s with x := xs } := ⟨t.x, h.1.symm⟩
  simp only [State.writeData, sameDefined_busy h, sameDefined_selectsWord h]
  split
  case isTrue => exact sameDefined_map hblocked h
  case isFalse =>
    split
    case isTrue =>
      have hword := sameRegDefined_setWord (sameDefined_reg hs h s.rsel) s.widx.toNat w
      exact sameDefined_map hadvance (sameDefined_set h s.rsel.toNat hword)
    case isFalse => exact sameDefined_map hadvance h

theorem sameDefined_writeWin (hs : s.Inv) (ht : t.Inv) (h : sameDefined s t) {addr : Nat} {size : Size} {w : Word}
    (hdef : undefinedUse s (.write addr size w) = none) :
    sameDefined (s.writeWin w (s.winReg addr)) (t.writeWin w (t.winReg addr)) := by
  rw [sameDefined_winReg h]
  cases hr : s.winReg addr
  case data => exact sameDefined_writeData hs h w
  case cmd => exact sameDefined_issue hs ht h fun hb => by simpa [undefinedUse, hb, hr] using hdef
  case ctrl => exact sameDefined_map (ignoresRegs_writeCtrl w) h
  case irqStatus => exact sameDefined_map (f := (State.writeWin · w .irqStatus)) (fun _ _ => ⟨rfl, rfl⟩) h
  case irqEnable => exact sameDefined_map (f := (State.writeWin · w .irqEnable)) (fun _ _ => ⟨rfl, rfl⟩) h
  case rsel => exact sameDefined_map (f := (State.writeWin · w .rsel)) (fun _ _ => ⟨rfl, rfl⟩) h
  case widx => exact sameDefined_map (f := (State.writeWin · w .widx)) (fun _ _ => ⟨rfl, rfl⟩) h
  all_goals exact h

theorem sameDefined_readWin (hs : s.Inv) (ht : t.Inv) (h : sameDefined s t) {addr : Nat} {size : Size}
    (hdef : undefinedUse s (.read addr size) = none) :
    sameDefined ((s.readWin (s.winReg addr)).2.respond (s.readWin (s.winReg addr)).1)
      ((t.readWin (t.winReg addr)).2.respond (t.readWin (t.winReg addr)).1) := by
  rw [sameDefined_winReg h, readWin_value_congr hs ht h hdef]
  exact sameDefined_map (ignoresRegs_readWin _ _) h

theorem sameDefined_powerOnReset (h : sameDefined s t) : sameDefined s.powerOnReset t.powerOnReset := by
  rw [← h.1]
  exact ⟨rfl, rfl, fun _ _ => ⟨rfl, fun _ _ _ => rfl⟩⟩

/-- Where no undefined word is used, a step from two such states leads to two such states. -/
theorem step_sameDefined {s' : State} (hs : s.Inv) (ht : t.Inv) (h : sameDefined s t) (hstep : step s = .next s')
    (hdef : ∀ a, nextAccess s = some a → undefinedUse s a = none) : ∃ t', step t = .next t' ∧ sameDefined s' t' := by
  have hin : t.inputs = s.inputs := by rw [← h.1]
  have hwin (addr : Nat) : t.inWindow addr = s.inWindow addr := by rw [← h.1]; rfl
  -- The inputs to come are neither part of the invariant nor of what the registers hold.
  have hs' (rest : List Input) : State.Inv { s with inputs := rest } := hs
  have ht' (rest : List Input) : State.Inv { t with inputs := rest } := ht
  have h' (rest : List Input) : sameDefined { s with inputs := rest } { t with inputs := rest } :=
    sameDefined_map (f := fun u => { u with inputs := rest }) (fun _ _ => ⟨rfl, rfl⟩) h
  cases step_cases hstep with
  | core rest hi hcore =>
    obtain ⟨t', hcore', hst⟩ := coreTurn_sameDefined (hs' rest) (h' rest) hcore
    exact ⟨t', (step_of_coreTurn (by rwa [hin])).trans hcore', hst⟩
  | reset rest hi hreset =>
    subst hreset
    exact ⟨_, step_of_cons (hin.trans hi), sameDefined_powerOnReset (h' rest)⟩
  | read addr size rest hi hw hread =>
    subst hread
    exact ⟨_, (step_of_cons (hin.trans hi)).trans (hostTurn_read (size := size) ((hwin addr).trans hw)),
      sameDefined_readWin (size := size) (hs' rest) (ht' rest) (h' rest) (hdef _ (nextAccess_read hi hw))⟩
  | write addr size w rest hi hw hwrite =>
    subst hwrite
    exact ⟨_, (step_of_cons (hin.trans hi)).trans (hostTurn_write (size := size) ((hwin addr).trans hw)),
      sameDefined_writeWin (size := size) (hs' rest) (ht' rest) (h' rest) (hdef _ (nextAccess_write hi hw))⟩

end

/-- Settles O60: the strict machine names a register exactly at a use of an undefined word, and what else a step reads of the
state is the same in two states that differ only in undefined words. -/
theorem undefinedContentsAreInvisible : Obligations.UndefinedContentsAreInvisible := by
  refine ⟨fun s hal ⟨r, hr⟩ => strictStep_of_usesUndefined hal hr, fun s => strictStep_of_not_usesUndefined, ?_⟩
  intro s t s' hs ht h hstrict
  obtain ⟨hstep, hok⟩ := strictStep_eq_next_iff.1 hstrict
  obtain ⟨t', hstep', h'⟩ := step_sameDefined hs ht h hstep fun a ha => (hok a ha).2
  refine ⟨t', strictStep_eq_next_iff.2 ⟨hstep', fun a ha => ?_⟩, h', by rw [← h'.1], hstep⟩
  rw [undefinedUse_congr hs h]
  exact hok a (by rwa [nextAccess_congr h] at ha)

/-! ## Acceptance and overrun (R40) -/

theorem issue_idle {s : State} (h : s.pending = none) (w : Word) : s.issue w = s.accept w := by
  simp [State.issue, not_busy_iff.2 h]

theorem issue_busy {s : State} (h : s.pending ≠ none) (w : Word) :
    s.issue w = { s with irqStatus := s.irqStatus ||| flagOverrun } := by
  simp [State.issue, busy_iff.2 h]

/-- Settles O36: a CMD write is `issue`, which accepts while Idle and sets OVERRUN while Busy. -/
theorem cmdWriteIsAcceptedOrOverruns : Obligations.CmdWriteIsAcceptedOrOverruns := by
  intro s w rest hi
  rw [step_hostWrite hi]
  refine ⟨fun hp => ?_, fun hp => congrArg _ (issue_busy (s := { s with inputs := rest }) hp w)⟩
  rw [State.writeWin, issue_idle (s := { s with inputs := rest }) hp, State.accept]
  cases decode s.params.nreg w <;> rfl

/-! ## What a command leaves unchanged (R22, R26, R42) -/

theorem completionFlags_eq (e : ErrCode) : completionFlags e = if e = .none then 0b0001#4 else 0b0011#4 := by
  cases e <;> rfl

section
variable {s t : State}

theorem raise_cmp {e : ErrCode} (h : s.raise e = .next t) : t.cmp = s.cmp := by rw [raise_next h]; rfl

theorem finish_cmp {rd : RegIdx} {v : Nat} (h : s.finish rd v = .next t) : t.cmp = s.cmp := by rw [finish_next h]; rfl

theorem finishFitting_cmp {rd : RegIdx} {v : Nat} (h : s.finishFitting rd v = .next t) : t.cmp = s.cmp := by
  unfold State.finishFitting at h
  split at h
  · exact raise_cmp h
  · exact finish_cmp h

theorem finishModular_cmp {rd : RegIdx} {m v : Nat} (h : s.finishModular rd m v = .next t) : t.cmp = s.cmp := by
  unfold State.finishModular at h
  split at h
  · exact raise_cmp h
  · exact finish_cmp h

/-- Only CMP writes STATUS.CMP (R26). -/
theorem exec_cmp {i : Instr} (hne : ∀ rs1 rs2, i ≠ .cmp rs1 rs2) (h : exec i s = .next t) : t.cmp = s.cmp := by
  cases i with
  | cmp rs1 rs2 => exact absurd rfl (hne rs1 rs2)
  | add | shl | mul | mulk | mult => exact finishFitting_cmp h
  | addt | shr | and | mov | ldi => exact finish_cmp h
  | modadd | modmul | modmulk | modmult | modexp => exact finishModular_cmp h
  | sub | mod =>
    simp only [exec, execSub, execMod] at h
    split at h
    · exact raise_cmp h
    · exact finish_cmp h
  | div rd rs1 rs2 rs3 =>
    simp only [exec, execDiv] at h
    split at h
    · exact raise_cmp h
    · exact (finish_cmp h).trans (State.writeX_cmp ..)

end

/-- Settles O44: a command is a completion, and only CMP writes STATUS.CMP. -/
theorem commandFrame : Obligations.CommandFrame := by
  intro i s t h
  obtain ⟨hframe, -, hlen, hothers⟩ := exec_completion h
  have hflags : t.irqStatus = s.irqStatus ||| completionFlags t.errcode := congrArg State.irqStatus hframe
  rw [completionFlags_eq] at hflags
  exact ⟨hlen, hothers, fun hne => exec_cmp hne h, (congrArg State.params hframe :), (congrArg State.cmd hframe :),
    (congrArg State.irqEnable hframe :), (congrArg State.rsel hframe :), (congrArg State.widx hframe :),
    (congrArg State.inputs hframe :), (congrArg State.responses hframe :), hflags⟩

/-! ## Who writes STATUS.CMP, ERRCODE and the operand registers -/

/-- The comparator reports the order of the natural numbers (R109). -/
theorem magCompare_eq_order (a b : Nat) : magCompare a b = order a b := by
  have hlt {u v : Nat} (h : nbits u < nbits v) : u < v := (lt_two_pow_nbits u).trans_le (lt_nbits_iff.1 h)
  unfold magCompare order
  split
  case isTrue h => rw [if_neg (hlt h).ne, if_pos (hlt h)]
  case isFalse hab =>
    split
    case isTrue h => rw [if_neg (hlt h).ne', if_neg (hlt h).asymm]
    case isFalse hba =>
      have hb : b < 2 ^ nbits a := nbits_le_iff.1 (not_lt.1 hab)
      exact scanDown_eq _ a b (by rw [Nat.div_eq_of_lt (lt_two_pow_nbits a), Nat.div_eq_of_lt hb])

/-- The encoding of the order (R26). -/
theorem order_bits (a b : Nat) : (a = b → (order a b).bits = 0b00#2) ∧ (a < b → (order a b).bits = 0b01#2) ∧
    (b < a → (order a b).bits = 0b10#2) := by
  unfold order
  refine ⟨fun h => ?_, fun h => ?_, fun h => ?_⟩
  · rw [if_pos h]; rfl
  · rw [if_neg h.ne, if_pos h]; rfl
  · rw [if_neg h.ne', if_neg h.asymm]; rfl

section
variable {s t : State}

/-- A completion that changes STATUS.CMP is one of a CMP (R26). -/
theorem coreTurn_cmp (h : coreTurn s = .next t) (hne : t.cmp ≠ s.cmp) : ∃ rs1 rs2 ops, Running s (.cmp rs1 rs2) ops := by
  rcases hp : s.pending with _ | ⟨_ | i, ops⟩
  case none => rw [coreTurn_idle hp] at h; exact absurd (Host.Outcome.next.inj h ▸ rfl) hne
  case some.illegal =>
    rw [coreTurn_illegal hp] at h
    exact absurd (raise_cmp h) hne
  case some.command =>
    rw [coreTurn_command hp] at h
    by_contra hcmp
    exact hne (exec_cmp (fun rs1 rs2 hi => hcmp ⟨rs1, rs2, ops, hi ▸ hp⟩) h)

/-- An Idle core's turn changes nothing, so a core turn that changes something completes a command. -/
theorem completes_of_coreTurn {rest : List Input} (hi : s.inputs = [] ∧ rest = [] ∨ s.inputs = .core :: rest)
    (h : coreTurn { s with inputs := rest } = .next t) (hne : t ≠ { s with inputs := rest }) : s.completes := by
  refine completes_of hi fun hp => hne ?_
  rw [coreTurn_idle (s := { s with inputs := rest }) hp] at h
  exact (Host.Outcome.next.inj h).symm

theorem resets_of_reset {rest : List Input} (hi : s.inputs = .resetPin :: rest) : s.resets := .inr (by rw [hi]; rfl)

/-- What a completing CMP leaves in STATUS.CMP (R110). -/
theorem cmp_of_completes {rs1 rs2 : RegIdx} {a b : Nat} (hc : s.completes) (hrun : Running s (.cmp rs1 rs2) [a, b])
    (h : step s = .next t) : t.cmp = order a b := by
  obtain ⟨rest, hstep⟩ := step_of_completes hc
  rw [hstep, coreTurn_command (s := { s with inputs := rest }) hrun] at h
  rw [← Host.Outcome.next.inj h, ← magCompare_eq_order]
  simp [State.operand, show s.pending = _ from hrun]

theorem cmp_of_step (h : step s = .next t) (hne : t.cmp ≠ s.cmp) :
    (s.completes ∧ ∃ rs1 rs2 ops, Running s (.cmp rs1 rs2) ops) ∨ (s.resets ∧ t.cmp = .eq) := by
  cases step_cases h with
  | core rest hi h =>
    exact .inl ⟨completes_of_coreTurn hi h fun heq => hne (heq ▸ rfl), coreTurn_cmp (s := { s with inputs := rest }) h hne⟩
  | reset rest hi h => exact .inr ⟨resets_of_reset hi, h ▸ rfl⟩
  | read addr size rest hi hw h =>
    rw [h, State.respond_cmp, readWin_frame] at hne
    exact absurd rfl hne
  | write addr size w rest hi hw h =>
    rw [h] at hne ⊢
    obtain hkeep | ⟨hr, hbit, heq⟩ := writeWin_cmp { s with inputs := rest } w (s.winReg addr)
    · exact absurd hkeep hne
    · exact .inr ⟨.inl ⟨w, (writes_iff hi hw).2 ⟨hr, rfl⟩, hbit⟩, heq⟩

end

/-- Settles O47, by the inversion of a step, and by the order that the comparator reports. -/
theorem cmpIsWrittenOnlyByCmp : Obligations.CmpIsWrittenOnlyByCmp := by
  refine ⟨fun s t => cmp_of_step, fun s t rs1 rs2 a b hc hrun h => ?_, fun c => by cases c <;> decide, rfl⟩
  rw [cmp_of_completes hc hrun h]
  exact order_bits a b

section
variable {s t : State}

theorem errcode_of_step (h : step s = .next t) (hne : t.errcode ≠ s.errcode) :
    s.completes ∨ (s.pending = none ∧ (∃ w, s.writes .cmd w) ∧ t.errcode = .none) ∨ (s.resets ∧ t.errcode = .none) := by
  cases step_cases h with
  | core rest hi h => exact .inl (completes_of_coreTurn hi h fun heq => hne (heq ▸ rfl))
  | reset rest hi h => exact .inr (.inr ⟨resets_of_reset hi, h ▸ rfl⟩)
  | read addr size rest hi hw h =>
    rw [h, State.respond_errcode, readWin_frame] at hne
    exact absurd rfl hne
  | write addr size w rest hi hw h =>
    rw [h] at hne ⊢
    obtain hkeep | ⟨hr, hbit, heq⟩ | ⟨hr, hidle, heq⟩ := writeWin_errcode { s with inputs := rest } w (s.winReg addr)
    · exact absurd hkeep hne
    · exact .inr (.inr ⟨.inl ⟨w, (writes_iff hi hw).2 ⟨hr, rfl⟩, hbit⟩, heq⟩)
    · exact .inr (.inl ⟨not_busy_iff.1 hidle, ⟨w, (writes_iff hi hw).2 ⟨hr, rfl⟩⟩, heq⟩)

/-- A CMD write by an Idle core accepts the word. -/
theorem step_of_cmdWrite {w : Word} (hp : s.pending = none) (hwrite : s.writes .cmd w) :
    ∃ rest, step s = .next (State.accept { s with inputs := rest } w) := by
  obtain ⟨addr, size, rest, hi, hw, hr⟩ := hwrite
  refine ⟨rest, (step_of_cons hi).trans ((hostTurn_write (s := { s with inputs := rest }) (size := size) hw).trans ?_)⟩
  rw [show State.winReg { s with inputs := rest } addr = .cmd from hr, State.writeWin,
    issue_idle (s := { s with inputs := rest }) hp]

theorem err_iff_bits : s.err = true ↔ s.errcode.bits ≠ 0#4 := by
  rw [err_iff]
  cases s.errcode <;> simp [ErrCode.bits]

end

/-- Settles O48, by the inversion of a step; an acceptance clears ERRCODE whatever it was. -/
theorem errorCodeIsWrittenOnlyBy : Obligations.ErrorCodeIsWrittenOnlyBy := by
  refine ⟨fun s t => errcode_of_step, fun s t h hp ⟨w, hwrite⟩ => ?_, fun s => err_iff_bits, rfl⟩
  obtain ⟨rest, hstep⟩ := step_of_cmdWrite hp hwrite
  rw [← Host.Outcome.next.inj (hstep.symm.trans h)]
  rfl

/-- Settles O49, by the inversion of a step; a completion with an error writes no register (R195). -/
theorem registersAreWrittenOnlyBy : Obligations.RegistersAreWrittenOnlyBy := by
  intro s t h hne
  cases step_cases h with
  | core rest hi h =>
    have hc : s.completes := completes_of_coreTurn hi h fun heq => hne (heq ▸ rfl)
    obtain ⟨i, hcompletion⟩ := coreTurn_busy (s := { s with inputs := rest }) hc.1 h
    refine .inl ⟨hc, ?_⟩
    by_contra herr
    exact hne (hcompletion.precise herr).1
  | reset rest hi h => exact .inr (.inr (by rw [hi]; rfl))
  | read addr size rest hi hw h =>
    rw [h, State.respond_x, readWin_frame] at hne
    exact absurd rfl hne
  | write addr size w rest hi hw h =>
    rw [h] at hne
    obtain hkeep | ⟨hr, hidle⟩ := writeWin_x { s with inputs := rest } w (s.winReg addr)
    · exact absurd hkeep hne
    · exact .inr (.inl ⟨not_busy_iff.1 hidle, w, (writes_iff hi hw).2 ⟨hr, rfl⟩⟩)

/-! ## What a read of the window returns (R29 to R39) -/

/-- The STATUS word field by field (R34). -/
theorem statusWord_toNat (s : State) : s.statusWord.toNat =
    (if s.pending = none then 0 else 1) + (if s.errcode = .none then 0 else 2) + 4 * s.cmp.bits.toNat +
      16 * s.errcode.bits.toNat := by
  have hbusy : s.busy = !decide (s.pending = none) := by cases hp : s.pending <;> simp [State.busy, hp]
  rw [State.statusWord, State.err, hbusy]
  by_cases hp : s.pending = none <;> cases s.errcode <;> cases s.cmp <;> simp [hp] <;> rfl

theorem capBits_lt {p : Params} (h : p.wf) : p.capBits < 2 ^ 32 := by
  obtain ⟨-, -, -, hcap, -⟩ := h
  unfold Params.capBits
  omega

theorem nreg_lt {p : Params} (h : p.wf) : p.nreg < 2 ^ 32 := by
  obtain ⟨-, hnreg, -, -, -⟩ := h
  omega

/-- Settles O55: a read of a register that is neither DATA nor NBITS returns its value and changes nothing. -/
theorem windowReads : Obligations.WindowReads := by
  intro s rest r hwf hdata hnbits hi
  rw [step_hostRead hi]
  cases r with
  | data => exact absurd rfl hdata
  | nbits => exact absurd rfl hnbits
  | id | ctrl | reserved | cmd => exact ⟨_, rfl, rfl⟩
  | capbits => exact ⟨_, rfl, Nat.mod_eq_of_lt (capBits_lt hwf)⟩
  | nreg => exact ⟨_, rfl, Nat.mod_eq_of_lt (nreg_lt hwf)⟩
  | status => exact ⟨_, rfl, statusWord_toNat s⟩
  | irqStatus | irqEnable | rsel | widx => exact ⟨_, rfl, BitVec.toNat_setWidth_of_le (by omega)⟩

end Sys2Proof.Proofs

namespace Sys2Proof.Proofs

open Sys2Proof.Machine Sys2Proof.Claims

/-! # 20_memory.md: the data words, the bus, and the accesses of the window -/

/-! ## Data words and byte lanes (R53, R54) -/

/-- The words below n make the value up to bit 32n; each further word adds its own 32 bits. -/
theorem sum_words_eq_mod (v n : Nat) :
    ((List.range n).map fun k => (wordOf v k).toNat * 2 ^ (32 * k)).sum = v % 2 ^ (32 * n) := by
  induction n with
  | zero => simp [Nat.mod_one]
  | succ n ih =>
    rw [List.range_succ, List.map_append, List.sum_append, ih, List.map_singleton, List.sum_singleton, wordOf_toNat,
      Nat.mul_succ, pow_add, Nat.mod_mul, Nat.mul_comm (2 ^ (32 * n))]

/-- Settles O27, by induction on the number of words. -/
theorem registerIsSumOfItsWords : Obligations.RegisterIsSumOfItsWords := by
  refine ⟨fun v k j hj => ?_, fun v n hv => ?_⟩
  · rw [wordOf_bit, decide_eq_true hj, Bool.true_and]
  · rw [sum_words_eq_mod, Nat.mod_eq_of_lt hv]

theorem lane_bit (w : Word) (k : Nat) {j : Nat} (hj : j < 8) : (lane w k).getLsbD j = w.getLsbD (8 * k + j) := by
  simp [lane, hj]

/-- Bit i of a word stands in lane i / 8. -/
theorem wordOfLanes_lanes (w : Word) : wordOfLanes (lane w 0) (lane w 1) (lane w 2) (lane w 3) = w := by
  apply BitVec.eq_of_getLsbD_eq
  intro i hi
  rw [wordOfLanes_bit]
  split_ifs
  all_goals rw [lane_bit _ _ (by omega)]; congr 1; omega

/-- Settles O33: a word and its lanes agree bit by bit. -/
theorem lanesAreLittleEndian : Obligations.LanesAreLittleEndian := fun w =>
  ⟨fun k _ _ => lane_bit w k, wordOfLanes_lanes w, fun nreg => congrArg (decode nreg) (wordOfLanes_lanes w)⟩

/-! ## Where a step stops (R50, R71) -/

section
variable {s : State} {addr : Nat} {size : Size} {rest : List Input}

/-- A host read of the window, by its address. -/
theorem step_read (hi : s.inputs = .host (.read addr size) :: rest) (hw : s.inWindow addr = true) :
    step s = .next ((State.readWin { s with inputs := rest } (s.winReg addr)).2.respond
      (State.readWin { s with inputs := rest } (s.winReg addr)).1) :=
  (step_of_cons hi).trans (hostTurn_read (s := { s with inputs := rest }) (size := size) hw)

/-- A host write of the window, by its address. -/
theorem step_write {w : Word} (hi : s.inputs = .host (.write addr size w) :: rest) (hw : s.inWindow addr = true) :
    step s = .next (State.writeWin { s with inputs := rest } w (s.winReg addr)) :=
  (step_of_cons hi).trans (hostTurn_write (s := { s with inputs := rest }) (size := size) hw)

theorem step_read_outside (hi : s.inputs = .host (.read addr size) :: rest) (hw : s.inWindow addr = false) :
    step s = .refused (.outsideWindow addr) := by
  have hw' : State.inWindow { s with inputs := rest } addr = false := hw
  simp [step_of_cons hi, perform, hostTurn, hw']

theorem step_write_outside {w : Word} (hi : s.inputs = .host (.write addr size w) :: rest)
    (hw : s.inWindow addr = false) : step s = .refused (.outsideWindow addr) := by
  have hw' : State.inWindow { s with inputs := rest } addr = false := hw
  simp [step_of_cons hi, perform, hostTurn, hw']

end

/-- Settles O43, by the kind of the next input: the core's turn and a reset always answer, and a host access does unless it
is outside the window; what answers keeps the parameters. -/
theorem stepStopsOnlyOutsideWindow : Obligations.StepStopsOnlyOutsideWindow := by
  intro s
  have hanswers {t : State} (h : step s = .next t) : ∃ t, step s = .next t ∧ t.params = s.params :=
    ⟨t, h, step_params h⟩
  rcases hi : s.inputs with _ | ⟨⟨⟨addr, size⟩ | ⟨addr, size, w⟩⟩ | _ | _, rest⟩
  case nil =>
    obtain ⟨t, ht⟩ := coreTurn_next s
    exact .inl (hanswers ((step_of_nil hi).trans ht))
  case cons.core =>
    obtain ⟨t, ht⟩ := coreTurn_next { s with inputs := rest }
    exact .inl (hanswers ((step_of_cons hi).trans ht))
  case cons.resetPin => exact .inl (hanswers (step_of_cons hi))
  case cons.host.read =>
    cases hw : s.inWindow addr with
    | true => exact .inl (hanswers (step_read hi hw))
    | false => exact .inr ⟨_, rest, addr, rfl, hw, step_read_outside hi hw, .inl ⟨size, rfl⟩⟩
  case cons.host.write =>
    cases hw : s.inWindow addr with
    | true => exact .inl (hanswers (step_write hi hw))
    | false => exact .inr ⟨_, rest, addr, rfl, hw, step_write_outside hi hw, .inr ⟨size, w, rfl⟩⟩

/-! ## Address bits [1:0] and the access width are ignored (R52) -/

/-- The decoded address bits [7:2] are the offset, rounded down to a word, within 256 bytes. -/
theorem and_0xFC (off : Nat) : off &&& 0xFC = off % 256 / 4 * 4 := by
  have hhigh : (off &&& 0xFC) / 2 ^ 2 = off / 2 ^ 2 % 2 ^ 6 := by
    rw [Nat.and_div_two_pow, ← Nat.and_two_pow_sub_one_eq_mod]
  have hlow : (off &&& 0xFC) % 2 ^ 2 = 0 := by
    rw [Nat.and_mod_two_pow]; exact Nat.and_zero _
  omega

theorem winRegAt_reserved {n : Nat} (h : 0x30 ≤ n) : winRegAt n = .reserved := by
  unfold winRegAt
  split
  case h_13 => rfl
  all_goals omega

section
variable {s : State} {addr : Nat} {size : Size} {rest : List Input}

/-- An address reaches the register that the address of its word reaches. -/
theorem winReg_word_offset (s : State) (off : Nat) :
    s.winReg (s.params.base + off / 4 * 4) = s.winReg (s.params.base + off) := by
  simp only [State.winReg, Nat.add_sub_cancel_left, and_0xFC]
  congr 1
  omega

theorem inWindow_iff : s.inWindow addr = true ↔ s.params.base ≤ addr ∧ addr < s.params.base + 0x100 := by
  simp [State.inWindow]

/-- The offsets 0x30 to 0xFC are reserved (R29). -/
theorem winReg_reserved (h : s.params.base + 0x30 ≤ addr) (hw : addr < s.params.base + 0x100) :
    s.winReg addr = .reserved := by
  apply winRegAt_reserved
  rw [and_0xFC]
  omega

theorem wordAccess_read_eq_false (h : size ≠ .word ∨ addr % 4 ≠ 0) :
    Safety.wordAccess (.read addr size) = false := by
  simpa [Safety.wordAccess, imp_iff_not_or] using h

theorem wordAccess_write_eq_false (w : Word) (h : size ≠ .word ∨ addr % 4 ≠ 0) :
    Safety.wordAccess (.write addr size w) = false := by
  simpa [Safety.wordAccess, imp_iff_not_or] using h

theorem strictStep_narrow_read (hi : s.inputs = .host (.read addr size) :: rest) (hw : s.inWindow addr = true)
    (h : size ≠ .word ∨ addr % 4 ≠ 0) : Safety.strictStep s = .refused (.notWordAccess addr) := by
  simp [Safety.strictStep, Safety.nextAccess_read hi hw, wordAccess_read_eq_false h]

theorem strictStep_narrow_write {w : Word} (hi : s.inputs = .host (.write addr size w) :: rest)
    (hw : s.inWindow addr = true) (h : size ≠ .word ∨ addr % 4 ≠ 0) :
    Safety.strictStep s = .refused (.notWordAccess addr) := by
  simp [Safety.strictStep, Safety.nextAccess_write hi hw, wordAccess_write_eq_false w h]

end

/-- Settles O57: an access and the aligned one to its word reach the same register, and bits [7:2] of every offset from 0x30
on name none. -/
theorem accessesAreDecodedByWordOffset : Obligations.AccessesAreDecodedByWordOffset := by
  refine ⟨fun s off size w _ hoff => ?_, fun s addr size rest hw hnarrow => ?_, fun s addr size rest hlow hhigh => ?_⟩
  · have hw : s.inWindow (s.params.base + off) = true := inWindow_iff.2 ⟨by omega, by omega⟩
    have hw' : s.inWindow (s.params.base + off / 4 * 4) = true := inWindow_iff.2 ⟨by omega, by omega⟩
    rw [hostTurn_read hw, hostTurn_read hw', hostTurn_write hw, hostTurn_write hw', winReg_word_offset]
    exact ⟨rfl, rfl⟩
  · exact ⟨fun hi => strictStep_narrow_read hi hw hnarrow, fun w hi => strictStep_narrow_write hi hw hnarrow⟩
  · have hw : s.inWindow addr = true := inWindow_iff.2 ⟨by omega, hhigh⟩
    refine ⟨fun hi => ?_, fun w hi => ?_⟩
    · rw [step_read hi hw, winReg_reserved hlow hhigh]; rfl
    · rw [step_write hi hw, winReg_reserved hlow hhigh]; rfl

/-! ## The data window while Busy (R59) -/

section
variable {s : State} {rest : List Input}

theorem readData_busy (hp : s.pending ≠ none) : s.readData = (0, s.blocked) := by
  simp [State.readData, busy_iff.2 hp]

theorem readNbits_busy (hp : s.pending ≠ none) : s.readNbits = (0, s.blocked) := by
  simp [State.readNbits, busy_iff.2 hp]

theorem writeData_busy (hp : s.pending ≠ none) (w : Word) : s.writeData w = s.blocked := by
  simp [State.writeData, busy_iff.2 hp]

/-- A DATA or NBITS read while Busy returns 0 and sets ACCESS. -/
theorem step_windowRead_busy (hp : s.pending ≠ none)
    (hi : s.inputs = hostRead s.params .data :: rest ∨ s.inputs = hostRead s.params .nbits :: rest) :
    step s = .next { s with
      inputs := rest, irqStatus := s.irqStatus ||| 0b1000#4, responses := s.responses ++ [0] } := by
  obtain hi | hi := hi
  · rw [step_hostRead hi, State.readWin, readData_busy (s := { s with inputs := rest }) hp]; rfl
  · rw [step_hostRead hi, State.readWin, readNbits_busy (s := { s with inputs := rest }) hp]; rfl

/-- A DATA write while Busy sets ACCESS and is discarded. -/
theorem step_dataWrite_busy {w : Word} (hp : s.pending ≠ none) (hi : s.inputs = hostWrite s.params .data w :: rest) :
    step s = .next { s with inputs := rest, irqStatus := s.irqStatus ||| 0b1000#4 } := by
  rw [step_hostWrite hi, State.writeWin, writeData_busy (s := { s with inputs := rest }) hp]; rfl

/-- A read of any other register changes nothing (R60). -/
theorem readWin_state {r : WinReg} (hdata : r ≠ .data) (hnbits : r ≠ .nbits) : (s.readWin r).2 = s := by
  cases r with
  | data => exact absurd rfl hdata
  | nbits => exact absurd rfl hnbits
  | id | capbits | nreg | ctrl | status | cmd | irqStatus | irqEnable | rsel | widx | reserved => rfl

end

/-- Settles O54: DATA and NBITS are blocked, and a read of another register only answers. -/
theorem windowIsBlockedWhileBusy : Obligations.WindowIsBlockedWhileBusy := by
  intro s rest hp
  refine ⟨step_windowRead_busy hp, fun w => step_dataWrite_busy hp, fun r hdata hnbits hi => ?_⟩
  rw [step_hostRead hi, readWin_state hdata hnbits]
  exact ⟨_, rfl⟩

/-! ## The data window while Idle (R55 to R58) -/

/-- A data word is the low 32 bits of the shifted value. -/
theorem wordOf_eq_div (v k : Nat) : wordOf v k = BitVec.ofNat 32 (v / 2 ^ (32 * k)) := by
  rw [wordOf, Nat.shiftRight_eq_div_pow]

section
variable {s : State}

theorem selectsWord_iff :
    s.selectsWord = true ↔ s.rsel.toNat < s.params.nreg ∧ s.widx.toNat < s.params.capWords := by
  simp [State.selectsWord]

theorem readData_idle (hp : s.pending = none) :
    s.readData = (if s.selectsWord then wordOf (s.val s.rsel) s.widx.toNat else 0, s.advance) := by
  simp [State.readData, not_busy_iff.2 hp]

theorem readNbits_idle (hp : s.pending = none) : s.readNbits =
    (if s.rsel.toNat < s.params.nreg then BitVec.ofNat 32 (nbits (s.val s.rsel)) else 0, s) := by
  simp [State.readNbits, not_busy_iff.2 hp]

theorem writeData_outOfRange (hp : s.pending = none) (hsel : s.selectsWord = false) (w : Word) :
    s.writeData w = s.advance := by
  simp [State.writeData, not_busy_iff.2 hp, hsel]

theorem writeData_inRange (hp : s.pending = none) (hsel : s.selectsWord = true) (w : Word) : s.writeData w =
    State.advance { s with x := s.x.set s.rsel.toNat ((s.reg s.rsel).setWord s.widx.toNat w) } := by
  simp [State.writeData, not_busy_iff.2 hp, hsel]

/-- A register the instance has reads back as it was replaced. -/
theorem reg_set_same {i : RegIdx} (h : i.toNat < s.x.length) (r : OpReg) :
    State.reg { s with x := s.x.set i.toNat r } i = r := by
  simp [State.reg, h]

end

/-- WIDX advances modulo 2^16 (R57). -/
theorem widx_add_one (k : BitVec 16) : k + 1 = BitVec.ofNat 16 ((k.toNat + 1) % 2 ^ 16) := by
  apply BitVec.eq_of_toNat_eq
  simp

/-- Settles O52: DATA and NBITS reads as they are while Idle, and blocked while Busy. -/
theorem dataAndNbitsReads : Obligations.DataAndNbitsReads := by
  refine fun s rest => ⟨fun hp hi => ?_, fun hp hi => ?_, step_windowRead_busy⟩
  · rw [step_hostRead hi, State.readWin, readData_idle (s := { s with inputs := rest }) hp, ← widx_add_one,
      ← wordOf_eq_div]
    simp only [selectsWord_iff]
    rfl
  · rw [step_hostRead hi, State.readWin, readNbits_idle (s := { s with inputs := rest }) hp]; rfl

/-- Settles O53: a DATA write is `writeData`, and the word it sets is laid out by `OpReg.setWord`. -/
theorem dataWriteReplacesOneWord : Obligations.DataWriteReplacesOneWord := by
  intro s w rest hlen hi
  refine ⟨fun hp => step_dataWrite_busy hp hi, fun hp => ⟨_, step_hostWrite hi, ?_⟩⟩
  rw [State.writeWin]
  cases hsel : s.selectsWord with
  | false =>
    have hout := mt selectsWord_iff.2 (Bool.eq_false_iff.1 hsel)
    rw [writeData_outOfRange (s := { s with inputs := rest }) hp hsel]
    exact ⟨rfl, rfl, fun _ => rfl, fun hin => absurd hin hout⟩
  | true =>
    have hin := selectsWord_iff.1 hsel
    rw [writeData_inRange (s := { s with inputs := rest }) hp hsel]
    refine ⟨rfl, List.length_set, fun hout => absurd hin hout, fun _ => ?_⟩
    have hreg : State.reg { s with x := s.x.set s.rsel.toNat ((s.reg s.rsel).setWord s.widx.toNat w) } s.rsel =
      (s.reg s.rsel).setWord s.widx.toNat w := reg_set_same (hlen ▸ hin.1) _
    have hval := congrArg OpReg.value hreg
    refine ⟨hval, ?_, fun j hj => ?_, fun j => ?_, fun j hj => List.getElem?_set_ne hj.symm⟩
    · exact (congrArg (wordOf · _) hval).trans (wordOf_setWord_same ..)
    · exact (congrArg (wordOf · j) hval).trans (wordOf_setWord_other _ w hj)
    · exact (hreg ▸ mem_setWord_undef (s.reg s.rsel) s.widx.toNat w j :)

end Sys2Proof.Proofs

namespace Sys2Proof.Proofs

open Sys2Proof.Machine Sys2Proof.Claims

/-! # 30_encoding.md: the decoder and the encoder, the opcode map, ILLEGAL words, and the pseudo-instructions -/

/-! ## Decoding and encoding are inverse (R76 to R81, R88) -/

/-- The encoding of a command has the opcode and function of the command's row, and passes the row's mask. -/
theorem opcodeRow_encode (i : Instr) :
    ∃ row, opcodeRow (encode i) = some row ∧ encode i &&& row.mask = row.mtch ∧ row.instr = i := by
  cases i <;> simp only [encode, opcodeRow, opField_formatR, fnField_formatR, rdField_formatR, rs1Field_formatR,
    rs2Field_formatR, rs3Field_formatR, opField_formatI, fnField_formatI, rdField_formatI, rs1Field_formatI,
    immField_formatI]
  case add | addt | sub | and | mul | mulk | mult | mod => exact ⟨_, rfl, mask_fff .., rfl⟩
  case div | modadd | modmul | modmulk | modmult | modexp => exact ⟨_, rfl, mask_ff .., rfl⟩
  case cmp => exact ⟨_, rfl, mask_cmp .., rfl⟩
  case mov => exact ⟨_, rfl, mask_mov .., rfl⟩
  case shl | shr => exact ⟨_, rfl, mask_I .., rfl⟩
  case ldi => exact ⟨_, rfl, mask_ldi .., rfl⟩

theorem decode_encode {nreg : Nat} {i : Instr} (h : i.wf nreg = true) : decode nreg (encode i) = .legal i := by
  obtain ⟨row, hrow, hm, rfl⟩ := opcodeRow_encode i
  exact decode_of_row hrow hm h

/-- Settles O28, from the row that the encoding of a command has. -/
theorem decodeOfEncodeIsIdentity : Obligations.DecodeOfEncodeIsIdentity := fun _ _ => decode_encode

/-- Settles O29: a word that passes its row's mask is put together from its fields again. -/
theorem encodeOfDecodeIsIdentity : Obligations.EncodeOfDecodeIsIdentity := fun _ _ _ => encode_of_decode

/-- Settles O32, by decoding the example words. -/
theorem exampleWordsDecode : Obligations.ExampleWordsDecode := by
  unfold Obligations.ExampleWordsDecode
  decide

/-! ## What the decoder does with a row (R82, R88) -/

section
variable {w : Word} {row : Row}

/-- A word without a row is ILLEGAL for its opcode or its function. -/
theorem decode_of_no_row (h : opcodeRow w = none) (nreg : Nat) :
    decode nreg w = .illegal .reservedOpcode ∨ decode nreg w = .illegal .reservedFunction := by
  simp only [decode, h]
  split
  · exact .inl rfl
  · exact .inr rfl

/-- A word with a row passes its mask exactly if it decodes, or only a register check of R80 stops it. -/
theorem passes_mask_iff (h : opcodeRow w = some row) (nreg : Nat) : w &&& row.mask = row.mtch ↔
    (∃ i, decode nreg w = .legal i) ∨ decode nreg w = .illegal .registerIndex ∨
      decode nreg w = .illegal .sameDestinations := by
  simp only [decode, h]
  split_ifs <;> simp_all

/-- A word with a row is ILLEGAL exactly if it fails the mask or one of the register checks of R80. -/
theorem illegal_iff_of_row (h : opcodeRow w = some row) (nreg : Nat) : (∃ why, decode nreg w = .illegal why) ↔
    w &&& row.mask ≠ row.mtch ∨ row.instr.indexesOk nreg = false ∨ row.instr.destsDistinct = false := by
  simp only [decode, h]
  split_ifs <;> simp_all

end

/-! ## The opcode map (R81)

OP and FN alone choose the row, and every mask keeps both: so a word that matches an entry of the map has that entry's
row. -/

/-- A row as the map of R81 lists it: name, match, mask. -/
def mapEntry (row : Row) : String × Word × Word := (mnemonic row.instr, row.mtch, row.mask)

theorem mapEntry_congr {w v : Word} (hop : opField w = opField v) (hfn : fnField w = fnField v) :
    (opcodeRow w).map mapEntry = (opcodeRow v).map mapEntry := by
  unfold opcodeRow
  rw [hop, hfn]
  split <;> rfl

/-- The decoder has no row that the map does not list. -/
theorem mapEntry_mem {w : Word} {row : Row} (h : opcodeRow w = some row) : mapEntry row ∈ matchMask := by
  unfold opcodeRow at h
  split at h
  case h_20 => cases h
  all_goals
    obtain rfl := Option.some.inj h
    simp [mapEntry, mnemonic, matchMask]

/-- The match value of an entry has the entry's row. -/
theorem mapEntry_of_mtch : ∀ r ∈ matchMask, (opcodeRow r.2.1).map mapEntry = some r := by decide

theorem matchMask_keeps_opcode : ∀ r ∈ matchMask, ∀ i < 8, r.2.2.getLsbD (24 + i) = true := by decide

/-- A word that matches an entry of the map has the entry's row. -/
theorem mapEntry_of_match {w : Word} {r : String × Word × Word} (hr : r ∈ matchMask) (hm : w &&& r.2.2 = r.2.1) :
    (opcodeRow w).map mapEntry = some r := by
  have hkept := matchMask_keeps_opcode r hr
  have hop : opField w = opField r.2.1 := field_of hm 27 5 fun i hi => by
    simpa [← Nat.add_assoc] using hkept (3 + i) (by omega)
  have hfn : fnField w = fnField r.2.1 := field_of hm 24 3 fun i hi => hkept i (by omega)
  rw [mapEntry_congr hop hfn, mapEntry_of_mtch r hr]

/-- Matching an entry of the map is having a row and passing its mask. -/
theorem matches_iff_passes_mask {w : Word} : (∃ r ∈ matchMask, w &&& r.2.2 = r.2.1) ↔
    ∃ row, opcodeRow w = some row ∧ w &&& row.mask = row.mtch := by
  constructor
  · rintro ⟨r, hr, hm⟩
    obtain ⟨row, hrow, rfl⟩ := Option.map_eq_some_iff.1 (mapEntry_of_match hr hm)
    exact ⟨row, hrow, hm⟩
  · rintro ⟨row, hrow, hm⟩
    exact ⟨mapEntry row, mapEntry_mem hrow, hm⟩

/-- Settles O30: the row of a word names the one entry that the word can match. -/
theorem oneRowMatchesEachWord : Obligations.OneRowMatchesEachWord := by
  refine ⟨fun w r hr q hq hmr hmq => ?_, fun nreg w => ?_, fun nreg w i h => ?_⟩
  · exact Option.some.inj ((mapEntry_of_match hr hmr).symm.trans (mapEntry_of_match hq hmq))
  · rw [matches_iff_passes_mask]
    cases hrow : opcodeRow w with
    | none => rcases decode_of_no_row hrow nreg with h | h <;> simp [h]
    | some row => simpa using passes_mask_iff hrow nreg
  · obtain ⟨row, hrow, hm, rfl, -⟩ := row_of_decode h
    exact ⟨mapEntry row, mapEntry_mem hrow, rfl, hm⟩

/-! ## The table of the field use (R78) -/

theorem toNat_extractLsb'_eq_bits (w : Word) (lo len : Nat) : (w.extractLsb' lo len).toNat = bits w lo len := by
  rw [BitVec.extractLsb'_toNat, Nat.shiftRight_eq_div_pow, bits]

theorem opField_toNat (w : Word) : (opField w).toNat = bits w 27 5 := toNat_extractLsb'_eq_bits w 27 5

theorem fnField_toNat (w : Word) : (fnField w).toNat = bits w 24 3 := toNat_extractLsb'_eq_bits w 24 3

theorem bits_eq_zero_iff {w : Word} {lo len : Nat} : bits w lo len = 0 ↔ ∀ j < len, w.getLsbD (lo + j) = false := by
  have hzero : bits w lo len = 0 ↔ w.extractLsb' lo len = 0#len := by
    rw [← toNat_extractLsb'_eq_bits, BitVec.toNat_eq, BitVec.toNat_ofNat, Nat.zero_mod]
  rw [hzero, BitVec.eq_of_getLsbD_eq_iff]
  refine forall₂_congr fun j hj => ?_
  simp [hj]

/-- The mask of a row of R81, read off R78: OP, FN and every field (lowest bit, length) that must be zero. -/
def maskOf (zero : List (Nat × Nat)) : Word :=
  zero.foldr (fun f k => BitVec.ofNat 32 ((2 ^ f.2 - 1) <<< f.1) ||| k) 0xff000000#32

theorem maskOf_bit (zero : List (Nat × Nat)) {i : Nat} (hi : i < 32) :
    (maskOf zero).getLsbD i = true ↔ 24 ≤ i ∨ ∃ f ∈ zero, f.1 ≤ i ∧ i < f.1 + f.2 := by
  induction zero with
  | nil => simpa [maskOf] using (by decide : ∀ i < 32, (0xff000000#32).getLsbD i = true ↔ 24 ≤ i) i hi
  | cons f fs ih =>
    have hfield : (BitVec.ofNat 32 ((2 ^ f.2 - 1) <<< f.1)).getLsbD i = true ↔ f.1 ≤ i ∧ i < f.1 + f.2 := by
      simp only [BitVec.getLsbD_ofNat, Nat.testBit_shiftLeft, Nat.testBit_two_pow_sub_one, Bool.and_eq_true,
        decide_eq_true_eq]
      omega
    rw [maskOf, List.foldr_cons, ← maskOf, BitVec.getLsbD_or, Bool.or_eq_true, ih, hfield, List.exists_mem_cons_iff,
      or_left_comm]

/-- A word's OP and FN with every other field zero are the word's bits from bit 24 up. -/
theorem formatR_head_bit (w : Word) {i : Nat} (hi : i < 32) :
    (formatR (opField w) (fnField w) 0 0 0 0).getLsbD i = (decide (24 ≤ i) && w.getLsbD i) := by
  rw [formatR_bit]
  interval_cases i <;> simp [opField, fnField]

/-- Under a mask that keeps OP, FN and some fields, only OP and FN are left of a word exactly if those fields are zero. -/
theorem and_maskOf_eq_iff (w : Word) {zero : List (Nat × Nat)} (hz : ∀ f ∈ zero, f.1 + f.2 ≤ 24) :
    w &&& maskOf zero = formatR (opField w) (fnField w) 0 0 0 0 ↔ ∀ f ∈ zero, bits w f.1 f.2 = 0 := by
  constructor
  · intro h f hf
    have hlen := hz f hf
    refine bits_eq_zero_iff.2 fun j hj => ?_
    have hkept := (maskOf_bit zero (by omega)).2 (.inr ⟨f, hf, Nat.le_add_right f.1 j, by omega⟩)
    rw [bit_of_mask h _ hkept, formatR_head_bit w (by omega), decide_eq_false (by omega), Bool.false_and]
  · intro h
    apply BitVec.eq_of_getLsbD_eq
    intro i hi
    rw [BitVec.getLsbD_and, formatR_head_bit w hi]
    by_cases hhead : 24 ≤ i
    · simp [hhead, (maskOf_bit zero hi).2 (.inl hhead)]
    · simp only [hhead, decide_false, Bool.false_and, Bool.and_eq_false_iff]
      refine or_iff_not_imp_right.2 fun hk => ?_
      obtain ⟨f, hf, hlo, hlen⟩ := ((maskOf_bit zero hi).1 (by simpa using hk)).resolve_left hhead
      simpa [hlo] using bits_eq_zero_iff.1 (h f hf) (i - f.1) (by omega)

/-- The decoder's row of a word is what the row `u` of R78's table says: its match and mask, its register fields, and the
check of DIV's destinations. -/
structure RowFollows (u : FieldUse) (w : Word) (row : Row) : Prop where
  mask : row.mask = maskOf u.zero
  mtch : row.mtch = formatR (opField w) (fnField w) 0 0 0 0
  zero : ∀ f ∈ u.zero, f.1 + f.2 ≤ 24
  used : row.instr.regFields = u.used.map (w.extractLsb' · 4)
  dests : row.instr.destsDistinct = (u.op != 0x0A || rdField w != rs3Field w)

/-- A word whose (OP, FN) is in the table of R78 has a row, and the row follows the table. -/
theorem row_of_fieldUse {w : Word} {u : FieldUse} (hu : u ∈ fieldUse) (hop : u.op = bits w 27 5)
    (hfn : u.fn = bits w 24 3) : ∃ row, opcodeRow w = some row ∧ RowFollows u w row := by
  rw [← opField_toNat] at hop
  rw [← fnField_toNat] at hfn
  have hop' : opField w = BitVec.ofNat 5 u.op := by rw [hop, BitVec.ofNat_toNat, BitVec.setWidth_eq]
  have hfn' : fnField w = BitVec.ofNat 3 u.fn := by rw [hfn, BitVec.ofNat_toNat, BitVec.setWidth_eq]
  unfold opcodeRow
  rw [← hop, ← hfn]
  fin_cases hu
  all_goals
    refine ⟨_, rfl, rfl, ?_, ?_, rfl, rfl⟩
    · rw [hop', hfn']; rfl
    · decide

/-- A word that has a row has its (OP, FN) in the table of R78. -/
theorem fieldUse_of_row {w : Word} {row : Row} (h : opcodeRow w = some row) :
    ∃ u ∈ fieldUse, u.op = bits w 27 5 ∧ u.fn = bits w 24 3 := by
  rw [← opField_toNat, ← fnField_toNat]
  unfold opcodeRow at h
  split at h
  case h_20 => cases h
  all_goals
    rename_i hop hfn
    rw [hop, hfn]
    decide

/-! ## The ILLEGAL words (R82) -/

/-- Cases (c), (d) and (e): a word with its (OP, FN) in the table of R78. -/
theorem illegal_iff_of_fieldUse {w : Word} {u : FieldUse} (hu : u ∈ fieldUse) (hop : u.op = bits w 27 5)
    (hfn : u.fn = bits w 24 3) (nreg : Nat) : (∃ why, decode nreg w = .illegal why) ↔
      (∃ f ∈ u.zero, bits w f.1 f.2 ≠ 0) ∨ (∃ lo ∈ u.used, nreg ≤ bits w lo 4) ∨
        (u.op = 0x0A ∧ bits w 20 4 = bits w 8 4) := by
  obtain ⟨row, hrow, hmask, hmtch, hzero, hused, hdests⟩ := row_of_fieldUse hu hop hfn
  rw [illegal_iff_of_row hrow]
  refine or_congr ?_ (or_congr ?_ ?_)
  · rw [hmask, hmtch, Ne, and_maskOf_eq_iff w hzero]
    push Not
    rfl
  · simp only [Instr.indexesOk, hused, List.all_map, List.all_eq_false, Function.comp, toNat_extractLsb'_eq_bits,
      decide_eq_true_eq, not_lt]
  · rw [hdests, ← toNat_extractLsb'_eq_bits, ← toNat_extractLsb'_eq_bits, BitVec.toNat_inj]
    simp [rdField, rs3Field]

/-- Cases (a) and (b): a word whose (OP, FN) is not in the table of R78. -/
theorem illegal_of_no_fieldUse {w : Word} (h : ¬ ∃ u ∈ fieldUse, u.op = bits w 27 5 ∧ u.fn = bits w 24 3) (nreg : Nat) :
    ∃ why, decode nreg w = .illegal why := by
  cases hrow : opcodeRow w with
  | none => exact (decode_of_no_row hrow nreg).elim (fun h => ⟨_, h⟩) fun h => ⟨_, h⟩
  | some row => exact absurd (fieldUse_of_row hrow) h

/-- No command has an opcode that case (a) reserves. -/
theorem fieldUse_op : ∀ u ∈ fieldUse, 0 < u.op ∧ u.op < 0x0F := by decide

/-- An ILLEGAL word written to CMD of an Idle core completes with code 1 at the core's turn (R191). -/
theorem illegal_completes {s : State} {w : Word} {rest : List Input} {why : Reject}
    (hd : decode s.params.nreg w = .illegal why) (hp : s.pending = none)
    (hi : s.inputs = hostWrite s.params .cmd w :: .core :: rest) :
    ∃ t u, step s = .next t ∧ step t = .next u ∧ u.errcode = .illegal := by
  have haccept := step_hostWrite hi
  rw [State.writeWin, issue_idle (s := { s with inputs := .core :: rest }) hp] at haccept
  have hturn := step_of_coreTurn (.inr (State.accept_inputs { s with inputs := .core :: rest } w))
  refine ⟨_, _, haccept, hturn.trans (coreTurn_illegal (ops := []) ?_), rfl⟩
  rw [State.accept_pending, show decode (State.params { s with inputs := _ }).nreg w = _ from hd]
  rfl

/-- Settles O31, by whether (OP, FN) is in the table of R78. -/
theorem illegalWordsAreExactlyThose : Obligations.IllegalWordsAreExactlyThose := by
  refine ⟨fun nreg w => ⟨fun hill => ?_, ?_⟩, fun nreg => ⟨⟨_, rfl⟩, ⟨_, rfl⟩⟩, fun s w rest why => illegal_completes⟩
  · by_cases h : ∃ u ∈ fieldUse, u.op = bits w 27 5 ∧ u.fn = bits w 24 3
    · obtain ⟨u, hu, hop, hfn⟩ := h
      exact .inr (.inr (.inr ⟨u, hu, hop, hfn, (illegal_iff_of_fieldUse hu hop hfn nreg).1 hill⟩))
    · exact .inr (.inr (.inl h))
  · have hreserved (h : bits w 27 5 = 0 ∨ 0x0F ≤ bits w 27 5) :
        ¬ ∃ u ∈ fieldUse, u.op = bits w 27 5 ∧ u.fn = bits w 24 3 := by
      rintro ⟨u, hu, hop, -⟩
      have := fieldUse_op u hu
      omega
    rintro (hzero | hhigh | hfn | ⟨u, hu, hop, hfn, hbad⟩)
    · exact illegal_of_no_fieldUse (hreserved (.inl hzero)) nreg
    · exact illegal_of_no_fieldUse (hreserved (.inr hhigh)) nreg
    · exact illegal_of_no_fieldUse hfn nreg
    · exact (illegal_iff_of_fieldUse hu hop hfn nreg).2 hbad

/-! ## A command on given operands (R40 to R42) -/

/-- `ISSUE i` by an Idle core puts i in flight on what its source registers hold (R87). -/
theorem step_hostIssue {s : State} {i : Instr} {rest : List Input} (hwf : i.wf s.params.nreg = true)
    (hp : s.pending = none) (hi : s.inputs = hostIssue s.params i :: rest) :
    ∃ t, step s = .next t ∧ Running t i ((sources i).map s.val) :=
  step_issue hp (decode_encode hwf) hi

section
variable (s : State) (i : Instr) (ops : List Nat) (rd rs1 rs2 rs3 : RegIdx)

theorem finish_launched (v : Nat) : (launched s i ops).finish rd v = .next (completed s [(rd, v)] s.cmp .none) := rfl

theorem finishFitting_launched {v : Nat} (hv : v < 2 ^ s.params.capBits) :
    (launched s i ops).finishFitting rd v = .next (completed s [(rd, v)] s.cmp .none) := by
  rw [finishFitting_eq, if_pos (show v < (launched s i ops).params.bound from hv)]
  rfl

theorem finishModular_launched {m : Nat} (hm : m ≠ 0) (v : Nat) :
    (launched s i ops).finishModular rd m v = .next (completed s [(rd, v)] s.cmp .none) := by
  rw [finishModular_eq, if_neg hm]
  rfl

theorem exec_shl_launched {a : Nat} {imm : Imm16} (h : a * 2 ^ immValue imm < 2 ^ s.params.capBits) :
    exec (.shl rd rs1 imm) (launched s i (a :: ops)) = .next (completed s [(rd, a * 2 ^ immValue imm)] s.cmp .none) := by
  rw [← Nat.shiftLeft_eq] at h ⊢
  exact finishFitting_launched s i _ rd h

theorem exec_shr_launched (a : Nat) (imm : Imm16) :
    exec (.shr rd rs1 imm) (launched s i (a :: ops)) = .next (completed s [(rd, a / 2 ^ immValue imm)] s.cmp .none) := by
  rw [← Nat.shiftRight_eq_div_pow]
  exact finish_launched s i _ rd _

theorem exec_mul_launched {a b : Nat} (h : a * b < 2 ^ s.params.capBits) :
    exec (.mul rd rs1 rs2) (launched s i (a :: b :: ops)) = .next (completed s [(rd, a * b)] s.cmp .none) := by
  rw [← school_eq] at h ⊢
  exact finishFitting_launched s i _ rd h

theorem exec_modmul_launched (a b : Nat) {m : Nat} (hm : m ≠ 0) : exec (.modmul rd rs1 rs2 rs3)
    (launched s i (a :: b :: m :: ops)) = .next (completed s [(rd, a * b % m)] s.cmp .none) := by
  rw [← reduce_eq _ _ (Nat.pos_of_ne_zero hm), ← school_eq]
  exact finishModular_launched s i _ rd hm _

end

/-! ## The pseudo-instructions (R86) -/

/-- Writing to a register the value it holds changes no register's value, also if its index is not below NREG. -/
theorem writeX_val_self (s : State) (i r : RegIdx) : (s.writeX i (s.val i)).val r = s.val r := by
  by_cases hr : i = r
  · subst hr
    by_cases hi : i.toNat < s.x.length
    · rw [State.val, writeX_reg_same hi, written_value]
    · simp [State.val, State.reg, List.set_eq_of_length_le (not_lt.1 hi)]
  · rw [State.val, writeX_reg_other hr, State.val]

/-- Settles O59: each pseudo-instruction is its command on operands that coincide, or with a constant operand. -/
theorem pseudoInstructionsMeanWhatTheySay : Obligations.PseudoInstructionsMeanWhatTheySay := by
  refine ⟨fun rd rs rm => ⟨rfl, rfl, rfl, rfl, rfl, rfl⟩, fun p s rest => step_hostIssue, fun s rd rs rm a m => ?_⟩
  refine ⟨rfl, fun h => ?sqr, fun h => ?dbl, ?half, fun hm => ?modsqr, _, rfl, rfl, writeX_val_self s rs, ?done⟩
  case sqr =>
    rw [sq] at h ⊢
    exact exec_mul_launched s _ [] rd rs rs h
  case dbl =>
    rw [Nat.mul_comm] at h ⊢
    exact exec_shl_launched s _ [] rd rs (imm := 1) h
  case half => exact exec_shr_launched s _ [] rd rs a 1
  case modsqr =>
    rw [sq]
    exact exec_modmul_launched s _ [] rd rs rs rm a a hm
  case done => simp [completionFlags, flagDone]

end Sys2Proof.Proofs

namespace Sys2Proof.Proofs

open Sys2Proof.Machine Sys2Proof.Claims

/-! # 40_core_arith.md: the adder, the subtractor and the comparator, and the nine commands over them

The units are settled first: a command's proof is the completion of R42 with the unit's result put in. -/

/-! ## The adder (R100) -/

/-- The carry into bit i: the i low bits of the two operands sum to 2^i or more. -/
def carryInto (a b i : Nat) : Bool := decide (2 ^ i ≤ a % 2 ^ i + b % 2 ^ i)

section
variable (a b : Nat) {i w : Nat}

theorem carryInto_zero : carryInto a b 0 = false := by simp [carryInto, Nat.mod_one]

/-- It is the library's carry of two words, at every width the bit lies in. -/
theorem carryInto_eq_carry (h : i ≤ w) :
    carryInto a b i = BitVec.carry i (BitVec.ofNat w a) (BitVec.ofNat w b) false := by
  simp [carryInto, BitVec.carry, Nat.mod_mod_of_dvd _ (pow_dvd_pow 2 h)]

theorem getLsbD_top_ofNat (i : Nat) : (BitVec.ofNat (i + 1) a).getLsbD i = a.testBit i := by
  rw [BitVec.getLsbD_ofNat, decide_eq_true i.lt_succ_self, Bool.true_and]

/-- The carries are the majorities. -/
theorem carryInto_succ (i : Nat) : carryInto a b (i + 1) =
    ((a.testBit i && b.testBit i) || (a.testBit i && carryInto a b i) || (b.testBit i && carryInto a b i)) := by
  rw [carryInto_eq_carry a b le_rfl, BitVec.carry_succ, ← carryInto_eq_carry a b i.le_succ, getLsbD_top_ofNat,
    getLsbD_top_ofNat]

/-- A bit of the sum. -/
theorem testBit_add_eq_xor (i : Nat) :
    (a + b).testBit i = ((a.testBit i ^^ b.testBit i) ^^ carryInto a b i) := by
  rw [← getLsbD_top_ofNat, BitVec.ofNat_add, BitVec.getLsbD_add i.lt_succ_self, getLsbD_top_ofNat, getLsbD_top_ofNat,
    ← carryInto_eq_carry a b i.le_succ, Bool.xor_assoc]

/-- From the operands' length on, a carry is that the sum is longer. -/
theorem carryInto_of_nbits_le (ha : nbits a ≤ i) (hb : nbits b ≤ i) :
    carryInto a b i = decide (i < nbits (a + b)) := by
  simp only [carryInto, Nat.mod_eq_of_lt (nbits_le_iff.1 ha), Nat.mod_eq_of_lt (nbits_le_iff.1 hb), lt_nbits_iff]

/-- The sum of two values of at most w bits has at most w + 1. -/
theorem nbits_add_le (ha : nbits a ≤ w) (hb : nbits b ≤ w) : nbits (a + b) ≤ w + 1 := by
  rw [nbits_le_iff] at *
  omega

end

/-- Settles O21: the carries are `carryInto`, whose value at the operands' length is the sum's bit w. -/
theorem rippleAdderAdds : Obligations.RippleAdderAdds := by
  intro a b w hw
  have ha : nbits a ≤ w := hw ▸ le_max_left _ _
  have hb : nbits b ≤ w := hw ▸ le_max_right _ _
  have hsum := nbits_add_le a b ha hb
  have hout := carryInto_of_nbits_le a b ha hb
  refine ⟨carryInto a b, carryInto_zero a b, fun i _ => carryInto_succ a b i, fun i _ => ?bit, fun i hi => ?high,
    rippleAdd_eq a b, fun hc => ?longer, fun hc => ?fits⟩
  case bit => rw [rippleAdd_eq, testBit_add_eq_xor]
  case high =>
    rw [rippleAdd_eq]
    by_cases hiw : i = w
    · subst hiw
      rw [testBit_add_eq_xor, testBit_of_nbits_le ha, testBit_of_nbits_le hb]
      simp
    · simp [testBit_of_nbits_le (show nbits (a + b) ≤ i by omega), hiw]
  case longer =>
    rw [hout, decide_eq_true_eq] at hc
    omega
  case fits =>
    rw [hout, decide_eq_false_iff_not] at hc
    exact not_lt.1 hc

/-! ## The subtractor (R104) -/

/-- With b ≤ a < 2^n the three steps make 2^n - b + a, which is a - b modulo 2^n. -/
theorem complementSub_eq {a b : Nat} (h : b ≤ a) : complementSub a b = a - b := by
  have ha := lt_two_pow_nbits a
  calc complementSub a b = ((2 ^ nbits a - 1 - b + 1) % 2 ^ nbits a + a) % 2 ^ nbits a := rfl
    _ = (2 ^ nbits a + (a - b)) % 2 ^ nbits a := by rw [Nat.mod_add_mod]; congr 1; omega
    _ = a - b := by rw [Nat.add_mod_left, Nat.mod_eq_of_lt (by omega)]

/-- Settles O22: the first clause is the subtractor's definition. -/
theorem complementSubtractorSubtracts : Obligations.ComplementSubtractorSubtracts :=
  fun _ _ h => ⟨rfl, complementSub_eq h⟩

/-! ## The comparator (R109) -/

theorem order_of_lt {a b : Nat} (h : a < b) : order a b = .lt := by rw [order, if_neg h.ne, if_pos h]

theorem order_of_gt {a b : Nat} (h : b < a) : order a b = .gt := by rw [order, if_neg h.ne', if_neg h.asymm]

/-- The highest differing bit decides the order. -/
theorem order_of_testBit_ne {a b k : Nat} (hk : a.testBit k ≠ b.testBit k)
    (hhigh : ∀ j, k < j → a.testBit j = b.testBit j) : order a b = if a.testBit k then .gt else .lt := by
  cases hak : a.testBit k with
  | true =>
    have hbk : b.testBit k = false := by simpa [hak] using hk
    exact order_of_gt (Nat.lt_of_testBit k hbk hak fun j hj => (hhigh j hj).symm)
  | false =>
    have hbk : b.testBit k = true := by simpa [hak] using hk
    exact order_of_lt (Nat.lt_of_testBit k hak hbk hhigh)

/-- Settles O23: the length is compared first, and the comparator's outcome is the order, which the highest differing bit
decides. -/
theorem comparatorIsOrder : Obligations.ComparatorIsOrder := by
  refine fun a b => ⟨fun h => if_pos h, fun h => (if_neg h.asymm).trans (if_pos h), fun k _ hk hhigh => ?_,
    magCompare_eq_order a b⟩
  rw [magCompare_eq_order, order_of_testBit_ne hk hhigh]

/-! ## The shifter (R106) -/

/-- The significant bit length is the library's size of a natural number. -/
theorem nbits_eq_size (v : Nat) : nbits v = v.size := eq_of_forall_ge_iff fun _ => nbits_le_iff.trans Nat.size_le.symm

/-- A left shift of a value that is not 0 adds the count to its length. -/
theorem nbits_mul_two_pow {a : Nat} (h : a ≠ 0) (n : Nat) : nbits (a * 2 ^ n) = nbits a + n := by
  rw [← Nat.shiftLeft_eq, nbits_eq_size, nbits_eq_size, Nat.size_shiftLeft h]

/-- When a shifted value does not fit. -/
theorem two_pow_le_mul_two_pow_iff {a c n : Nat} : 2 ^ c ≤ a * 2 ^ n ↔ a ≠ 0 ∧ c < nbits a + n := by
  by_cases ha : a = 0
  · simp [ha]
  · rw [← lt_nbits_iff, nbits_mul_two_pow ha, and_iff_right ha]

/-! ## A command at its acceptance and at its completion (R40 to R42) -/

/-- Every command is issued on its source registers; its word is left to check under its row's mask (R81). -/
theorem issues_of_mask {i : Instr} {mtch mask : Word} (h : encode i &&& mask = mtch) : Issues i (sources i) mtch mask :=
  ⟨h, fun _ _ => step_hostIssue⟩

section
variable {s : State} {i : Instr} {a b : Nat} {ops : List Nat}

theorem operand_zero_of_running (h : Running s i (a :: ops)) (r : RegIdx) : s.operand 0 r = a := operand_of_pending h 0 r

theorem operand_one_of_running (h : Running s i (a :: b :: ops)) (r : RegIdx) : s.operand 1 r = b :=
  operand_of_pending h 1 r

end

section
variable (s : State) (rd : RegIdx) (v : Nat)

theorem complete_eq_completed (e : ErrCode) : s.complete e = completed s [] s.cmp e := by
  rw [State.complete, completionFlags_eq]; rfl

theorem raise_eq_completed (e : ErrCode) : s.raise e = .next (completed s [] s.cmp e) :=
  congrArg Host.Outcome.next (complete_eq_completed s e)

theorem finish_eq_completed : s.finish rd v = .next (completed s [(rd, v)] s.cmp .none) :=
  congrArg Host.Outcome.next (complete_eq_completed (s.writeX rd v) .none)

theorem finishFitting_eq_completed : s.finishFitting rd v = .next (if v < 2 ^ s.params.capBits
    then completed s [(rd, v)] s.cmp .none else completed s [] s.cmp .overflow) := by
  rw [finishFitting_eq, complete_eq_completed, complete_eq_completed]; rfl

end

/-! ## The commands that can raise an error: ADD, SUB, SHL -/

/-- Settles O1, by the sum of the adder. -/
theorem addWritesSumOrOverflows : Obligations.AddWritesSumOrOverflows := by
  refine fun rd rs1 rs2 => ⟨rfl, issues_of_mask (mask_fff ..), fun s a b h => ?_⟩
  rw [exec, execAdd, operand_zero_of_running h, operand_one_of_running h, rippleAdd_eq, finishFitting_eq_completed]

/-- Settles O3, by the difference of the subtractor where the check lets it run. -/
theorem subWritesDifferenceOrUnderflows : Obligations.SubWritesDifferenceOrUnderflows := by
  refine fun rd rs1 rs2 => ⟨rfl, issues_of_mask (mask_fff ..), fun s a b h => ?_⟩
  rw [exec, execSub, operand_zero_of_running h, operand_one_of_running h]
  by_cases hab : a < b
  · rw [if_pos hab, if_pos hab, raise_eq_completed]
  · rw [if_neg hab, if_neg hab, complementSub_eq (not_lt.1 hab), finish_eq_completed]

/-- Settles O4, by the length of a shifted value. -/
theorem shlWritesShiftedOrOverflows : Obligations.ShlWritesShiftedOrOverflows := by
  refine fun rd rs1 imm => ⟨rfl, issues_of_mask (mask_I ..), fun s a h => ⟨?_, two_pow_le_mul_two_pow_iff⟩⟩
  rw [exec, execShl, operand_zero_of_running h, Nat.shiftLeft_eq, finishFitting_eq_completed, immValue]

/-! ## The commands that raise none: ADDT, SHR, AND, CMP, MOV, LDI -/

/-- Settles O2, by the sum of the adder. -/
theorem addtTruncatesToCallersLength : Obligations.AddtTruncatesToCallersLength := by
  refine fun rd rs1 rs2 => ⟨rfl, issues_of_mask (mask_fff ..), fun s a b h => ?_⟩
  rw [exec, execAddt, operand_zero_of_running h, operand_one_of_running h, rippleAdd_eq, finish_eq_completed]

/-- Settles O5: a right shift is a division. -/
theorem shrDropsLowBits : Obligations.ShrDropsLowBits := by
  refine fun rd rs1 imm => ⟨rfl, issues_of_mask (mask_I ..), fun s a h => ?_⟩
  rw [exec, execShr, operand_zero_of_running h, Nat.shiftRight_eq_div_pow, finish_eq_completed, immValue]

/-- Settles O6: the value is the conjunction of the operands, bit by bit. -/
theorem andIsBitwise : Obligations.AndIsBitwise := by
  refine fun rd rs1 rs2 => ⟨rfl, issues_of_mask (mask_fff ..), fun s a b h => ⟨a &&& b, ?_, Nat.testBit_and a b⟩⟩
  rw [exec, execAnd, operand_zero_of_running h, operand_one_of_running h, finish_eq_completed]

/-- Settles O7: the comparator reports the order, and the rest is a completion without a write. -/
theorem cmpReportsOrder : Obligations.CmpReportsOrder := by
  refine fun rs1 rs2 => ⟨rfl, issues_of_mask (mask_cmp ..), fun s a b h => ?_⟩
  rw [exec, execCmp, operand_zero_of_running h, operand_one_of_running h, magCompare_eq_order, complete_eq_completed]
  rfl

/-- Settles O8: the value written is the sampled operand. -/
theorem movCopies : Obligations.MovCopies := by
  refine fun rd rs1 => ⟨rfl, issues_of_mask (mask_mov ..), fun s a h => ?_⟩
  rw [exec, execMov, operand_zero_of_running h, finish_eq_completed]

/-- Settles O9: LDI samples nothing, and a register a command writes has no undefined word. -/
theorem ldiLoadsConstant : Obligations.LdiLoadsConstant :=
  fun rd imm => ⟨rfl, issues_of_mask (mask_ldi ..), fun s _ => finish_eq_completed s rd imm.toNat⟩

end Sys2Proof.Proofs

namespace Sys2Proof.Proofs

open Sys2Proof.Machine Sys2Proof.Claims

/-! # 41_multiply.md: MUL, MULK and MULT

The three commands differ in their unit alone: one completion lemma, over any unit that multiplies, serves them all. -/

/-- At the completion of a command on operands a and b, a unit that multiplies gives the product or OVERFLOW (R193). -/
theorem finishFitting_unit_eq_completed {unit : Nat → Nat → Nat} (hunit : ∀ a b, unit a b = a * b) {s : State}
    {i : Instr} {a b : Nat} (h : Running s i [a, b]) (rd rs1 rs2 : RegIdx) :
    s.finishFitting rd (unit (s.operand 0 rs1) (s.operand 1 rs2)) = .next (if a * b < 2 ^ s.params.capBits
      then completed s [(rd, a * b)] s.cmp .none else completed s [] s.cmp .overflow) := by
  rw [operand_zero_of_running h, operand_one_of_running h, hunit, finishFitting_eq_completed]

/-- Settles O10, by the product of the schoolbook loop. -/
theorem mulWritesProductOrOverflows : Obligations.MulWritesProductOrOverflows :=
  fun rd rs1 rs2 => ⟨rfl, issues_of_mask (mask_fff ..),
    fun _ _ _ h => finishFitting_unit_eq_completed school_eq h rd rs1 rs2⟩

/-- Settles O11, by the product of the divide-and-conquer recursion. -/
theorem mulkWritesProductOrOverflows : Obligations.MulkWritesProductOrOverflows :=
  fun rd rs1 rs2 => ⟨rfl, issues_of_mask (mask_fff ..),
    fun _ _ _ h => finishFitting_unit_eq_completed kara_eq h rd rs1 rs2⟩

/-- Settles O12, by the product of the transform. -/
theorem multWritesProductOrOverflows : Obligations.MultWritesProductOrOverflows :=
  fun rd rs1 rs2 => ⟨rfl, issues_of_mask (mask_fff ..),
    fun _ _ _ h => finishFitting_unit_eq_completed trans_eq h rd rs1 rs2⟩

/-- Settles O20: the units give the product, and at its completion each command is the one outcome of O10, O11 and O12,
which no longer names the command. -/
theorem threeMultipliersAgree : Obligations.ThreeMultipliersAgree := by
  refine ⟨fun a b => ⟨school_eq a b, kara_eq a b, trans_eq a b⟩, fun s rd rs1 rs2 a b => ?_⟩
  obtain ⟨-, -, hmul⟩ := mulWritesProductOrOverflows rd rs1 rs2
  obtain ⟨-, -, hmulk⟩ := mulkWritesProductOrOverflows rd rs1 rs2
  obtain ⟨-, -, hmult⟩ := multWritesProductOrOverflows rd rs1 rs2
  rw [hmul (launched s _ [a, b]) a b rfl, hmulk (launched s _ [a, b]) a b rfl, hmult (launched s _ [a, b]) a b rfl]
  refine ⟨rfl, rfl, _, rfl, ?_⟩
  split
  case isTrue => exact .inl rfl
  case isFalse => exact .inr rfl

end Sys2Proof.Proofs

namespace Sys2Proof.Proofs

open Sys2Proof.Machine Sys2Proof.Claims

/-! # 42_divide.md: long division, DIV and MOD -/

/-! ## One level of the recursion for each bit of the dividend (R150) -/

/-- Dropping the low bit of a value that is not 0 takes one off its length. -/
theorem nbits_eq_nbits_half_add_one {v : Nat} (h : v ≠ 0) : nbits v = nbits (v / 2) + 1 := by
  obtain ⟨n, hn⟩ := Nat.exists_eq_add_one_of_ne_zero (nbits_pos h).ne'
  have hle (k : Nat) : nbits v ≤ k + 1 ↔ nbits (v / 2) ≤ k := by
    rw [nbits_le_iff, nbits_le_iff, pow_succ, Nat.div_lt_iff_lt_mul two_pos]
  have hup := (hle n).1 hn.le
  have hdown := (hle (nbits (v / 2))).2 le_rfl
  omega

/-- QuadDiv of a dividend that is not 0 is one step on QuadDiv of its half. -/
theorem quadDiv_eq_step_half {a : Nat} (h : a ≠ 0) (b : Nat) :
    quadDiv a b = quadDivStep b (a.testBit 0) (quadDiv (a / 2) b) := by
  rw [quadDiv, nbits_eq_nbits_half_add_one h, quadDivBits, if_neg h, Nat.shiftRight_one, quadDiv]

/-- Settles O24: the recursion is the algorithm's own, and the closed form gives the division identity and the bound. -/
theorem longDivisionDivides : Obligations.LongDivisionDivides := by
  refine fun a b hb => ⟨rfl, fun q r ha hqr => ?_, ?_⟩
  · rw [quadDiv_eq_step_half ha, hqr, quadDivStep, testBit_zero_toNat]
  · rw [quadDiv_eq hb.ne']
    exact ⟨rfl, Nat.div_add_mod' a b, Nat.mod_lt a hb⟩

/-! ## The commands DIV and MOD (R151, R152) -/

/-- Two writes in one completion step. -/
theorem writeX_finish_eq_completed (s : State) (rd rd' : RegIdx) (v v' : Nat) :
    (s.writeX rd v).finish rd' v' = .next (completed s [(rd, v), (rd', v')] s.cmp .none) :=
  finish_eq_completed (s.writeX rd v) rd' v'

/-- Settles O13: the zero divisor is checked first; past the check the division gives quotient and remainder. -/
theorem divWritesQuotientAndRemainder : Obligations.DivWritesQuotientAndRemainder := by
  refine fun rd rs1 rs2 rs3 => ⟨rfl, issues_of_mask (mask_ff ..), fun s a b h => ?_⟩
  rw [exec, execDiv, operand_zero_of_running h, operand_one_of_running h]
  by_cases hb : b = 0
  · rw [if_pos hb, if_pos hb, raise_eq_completed]
  · rw [if_neg hb, if_neg hb, quadDiv_eq hb, writeX_finish_eq_completed]

/-- Settles O14: the zero divisor is checked first; past the check the reduction gives the remainder. -/
theorem modWritesRemainder : Obligations.ModWritesRemainder := by
  refine fun rd rs1 rs2 => ⟨rfl, issues_of_mask (mask_fff ..), fun s a b h => ?_⟩
  rw [exec, execMod, operand_zero_of_running h, operand_one_of_running h]
  by_cases hb : b = 0
  · rw [if_pos hb, if_pos hb, raise_eq_completed]
  · rw [if_neg hb, if_neg hb, reduce_eq a b (Nat.pos_of_ne_zero hb), finish_eq_completed]

end Sys2Proof.Proofs

namespace Sys2Proof.Proofs

open Sys2Proof.Machine Sys2Proof.Claims

/-! # 43_modular.md: MODADD, MODMUL, MODMULK, MODMULT and MODEXP

The five commands differ in their unit alone: one completion lemma, over any unit that is right for a modulus that is not 0,
serves them all. -/

/-! ## Square and multiply (R170) -/

/-- ModExp over all bits of the exponent. -/
theorem modExp_eq (a e : Nat) {m : Nat} (hm : 0 < m) : modExp a e m = if e = 0 then 1 else a ^ e % m :=
  modExpBits_eq _ a e m hm (lt_two_pow_nbits e)

/-- ModExp with an exponent that is not 0 is one step on ModExp with its half. -/
theorem modExp_eq_step_half {e : Nat} (h : e ≠ 0) (a m : Nat) :
    modExp a e m = modExpStep a m (e.testBit 0) (modExp a (e / 2) m) := by
  rw [modExp, nbits_eq_nbits_half_add_one h, modExpBits, if_neg h, Nat.shiftRight_one, modExp]

/-- Each product of a step is reduced: the square always, the multiple of the base where the bit is 1. -/
theorem modExpStep_eq (a r : Nat) (bit : Bool) {m : Nat} (hm : 0 < m) :
    modExpStep a m bit r = if bit then r * r % m * a % m else r * r % m := by
  rw [modExpStep, school_eq, school_eq, reduce_eq _ m hm, reduce_eq _ m hm]

/-- Settles O25: the recursion is the algorithm's own, and the closed form is `modExp_eq`. -/
theorem squareAndMultiplyIsPower : Obligations.SquareAndMultiplyIsPower := by
  refine fun a e m hm => ⟨rfl, fun he => ?_, modExp_eq a e hm⟩
  rw [modExp_eq_step_half he, modExpStep_eq a _ _ hm]
  simp only [Nat.testBit_zero, decide_eq_true_eq]

/-! ## The modular commands (R165) -/

theorem finishModular_eq_completed (s : State) (rd : RegIdx) (m v : Nat) : s.finishModular rd m v =
    .next (if m = 0 then completed s [] s.cmp .divzero else completed s [(rd, v)] s.cmp .none) := by
  rw [finishModular_eq, complete_eq_completed, complete_eq_completed]; rfl

/-- At the completion of a command on operands a, b and m, a unit that is right for every m > 0 gives its result or DIVZERO. -/
theorem finishModular_unit_eq_completed {unit result : Nat → Nat → Nat → Nat}
    (hunit : ∀ a b m, 0 < m → unit a b m = result a b m) {s : State} {i : Instr} {a b m : Nat}
    (h : Running s i [a, b, m]) (rd rs1 rs2 rs3 : RegIdx) :
    s.finishModular rd (s.operand 2 rs3) (unit (s.operand 0 rs1) (s.operand 1 rs2) (s.operand 2 rs3)) =
      .next (if m = 0 then completed s [] s.cmp .divzero else completed s [(rd, result a b m)] s.cmp .none) := by
  have hm : s.operand 2 rs3 = m := operand_of_pending h 2 rs3
  rw [operand_zero_of_running h, operand_one_of_running h, hm, finishModular_eq_completed]
  by_cases h0 : m = 0
  · rw [if_pos h0, if_pos h0]
  · rw [if_neg h0, if_neg h0, hunit a b m (Nat.pos_of_ne_zero h0)]

/-- A sum or product at full width, then one reduction (R166 to R169): the residue of the exact value. -/
theorem reduce_unit_eq {unit op : Nat → Nat → Nat} (hunit : ∀ a b, unit a b = op a b) (a b m : Nat) (hm : 0 < m) :
    reduce (unit a b) m = op a b % m := by
  rw [hunit, reduce_eq _ m hm]

/-- Settles O15, by the sum of the adder. -/
theorem modaddWritesResidueOfSum : Obligations.ModaddWritesResidueOfSum :=
  fun rd rs1 rs2 rs3 => ⟨rfl, issues_of_mask (mask_ff ..),
    fun _ _ _ _ h => finishModular_unit_eq_completed (reduce_unit_eq rippleAdd_eq) h rd rs1 rs2 rs3⟩

/-- Settles O16, by the product of the schoolbook loop. -/
theorem modmulWritesResidueOfProduct : Obligations.ModmulWritesResidueOfProduct :=
  fun rd rs1 rs2 rs3 => ⟨rfl, issues_of_mask (mask_ff ..),
    fun _ _ _ _ h => finishModular_unit_eq_completed (reduce_unit_eq school_eq) h rd rs1 rs2 rs3⟩

/-- Settles O17, by the product of the divide-and-conquer recursion. -/
theorem modmulkWritesResidueOfProduct : Obligations.ModmulkWritesResidueOfProduct :=
  fun rd rs1 rs2 rs3 => ⟨rfl, issues_of_mask (mask_ff ..),
    fun _ _ _ _ h => finishModular_unit_eq_completed (reduce_unit_eq kara_eq) h rd rs1 rs2 rs3⟩

/-- Settles O18, by the product of the transform. -/
theorem modmultWritesResidueOfProduct : Obligations.ModmultWritesResidueOfProduct :=
  fun rd rs1 rs2 rs3 => ⟨rfl, issues_of_mask (mask_ff ..),
    fun _ _ _ _ h => finishModular_unit_eq_completed (reduce_unit_eq trans_eq) h rd rs1 rs2 rs3⟩

/-- Settles O19: the zero modulus is checked for every exponent; past the check the exponentiator gives the power, and 1
unreduced for exponent 0. -/
theorem modexpWritesPower : Obligations.ModexpWritesPower :=
  fun rd rs1 rs2 rs3 => ⟨rfl, issues_of_mask (mask_ff ..),
    fun _ _ _ _ h => finishModular_unit_eq_completed (fun a b _ => modExp_eq a b) h rd rs1 rs2 rs3⟩

end Sys2Proof.Proofs

namespace Sys2Proof.Proofs

open Sys2Proof.Machine Sys2Proof.Claims

/-! # 60_exceptions.md: completions, error codes, event flags and the interrupt output -/

/-! ## What every completion leaves (R42, R195) -/

section
variable {i : Instr} {s t : State}

theorem completion_pending (h : Completion i s t) : t.pending = none := by rw [h.frame]; rfl

theorem completion_irqStatus (h : Completion i s t) : t.irqStatus = s.irqStatus ||| completionFlags t.errcode :=
  congrArg State.irqStatus h.frame

/-- An error completion writes ERRCODE, the flags and BUSY alone. -/
theorem completion_eq_of_error (h : Completion i s t) (herr : t.errcode ≠ .none) :
    t = { s with errcode := t.errcode, irqStatus := s.irqStatus ||| 0b0011#4, pending := none } := by
  obtain ⟨hx, hcmp⟩ := h.precise herr
  have hflags : completionFlags t.errcode = 0b0011#4 := by rw [completionFlags_eq, if_neg herr]
  conv_lhs => rw [h.frame, hx, hcmp, State.complete, hflags]

end

/-- Settles O42: every meaning answers, and what it answers is a completion. -/
theorem everyCommandCompletes : Obligations.EveryCommandCompletes := fun i s =>
  have ⟨t, h⟩ := exec_next i s
  ⟨t, h, completion_pending (exec_completion h)⟩

/-! ## The error codes of each command (R194) -/

section
variable {s t : State} {rd : RegIdx} {v : Nat}

theorem raise_errcode {e : ErrCode} (h : s.raise e = .next t) : t.errcode = e := by rw [raise_next h]; rfl

theorem finish_errcode (h : s.finish rd v = .next t) : t.errcode = .none := by rw [finish_next h]; rfl

/-- A command that checks its operands first raises the check's code or completes without error. -/
theorem check_errcode {c : Prop} [Decidable c] {u : State} {e : ErrCode}
    (h : (if c then s.raise e else u.finish rd v) = .next t) : t.errcode ∈ [.none, e] := by
  split at h
  · simp [raise_errcode h]
  · simp [finish_errcode h]

/-- Every command completes with a code of its row. -/
theorem exec_errcode {i : Instr} (h : exec i s = .next t) : t.errcode ∈ possibleCodes i := by
  cases i with
  | add | sub | shl | mul | mulk | mult | div | mod | modadd | modmul | modmulk | modmult | modexp =>
    exact check_errcode h
  | addt | shr | and | mov | ldi => exact List.mem_singleton.2 (finish_errcode h)
  | cmp => exact List.mem_singleton.2 (Host.Outcome.next.inj h ▸ rfl)

end

/-- Settles O45: a core turn on a pending command is a completion, and the codes are those of the row. -/
theorem errorsArePreciseAndOfTheCommandsSet : Obligations.ErrorsArePreciseAndOfTheCommandsSet := by
  refine ⟨fun s t hp h herr => ?_, fun i s t => exec_errcode⟩
  obtain ⟨i, hc⟩ := coreTurn_busy hp h
  exact ⟨completion_eq_of_error hc herr, err_iff.2 herr, not_busy_iff.2 (completion_pending hc)⟩

/-! ## What the next input is (R197)

Each kind of input rules out the events of the other kinds. -/

section
variable {s : State} {rest : List Input}

theorem no_access_of_core (hi : s.inputs = [] ∧ rest = [] ∨ s.inputs = .core :: rest) :
    (∀ r, ¬ s.reads r) ∧ (∀ r w, ¬ s.writes r w) ∧ ¬ s.resets := by
  obtain ⟨hi, -⟩ | hi := hi <;> simp [State.reads, State.writes, State.resets, hi]

theorem no_other_event_of_reset (hi : s.inputs = .resetPin :: rest) :
    (∀ r, ¬ s.reads r) ∧ (∀ r w, ¬ s.writes r w) ∧ ¬ s.completes := by
  simp [State.reads, State.writes, State.completes, hi]

theorem no_other_event_of_read {addr : Nat} {size : Size} (hi : s.inputs = .host (.read addr size) :: rest) :
    (∀ r w, ¬ s.writes r w) ∧ ¬ s.resets ∧ ¬ s.completes := by
  simp [State.writes, State.resets, State.completes, hi]

theorem no_other_event_of_write {addr : Nat} {size : Size} {w : Word}
    (hi : s.inputs = .host (.write addr size w) :: rest) : (∀ r, ¬ s.reads r) ∧ ¬ s.completes := by
  simp [State.reads, State.completes, hi]

/-- A host write resets the core exactly if it is one of CTRL with bit 0 set (R33). -/
theorem resets_iff_of_write {addr : Nat} {size : Size} {w : Word}
    (hi : s.inputs = .host (.write addr size w) :: rest) (hw : s.inWindow addr = true) :
    s.resets ↔ s.winReg addr = .ctrl ∧ w.getLsbD 0 = true := by
  simp [State.resets, writes_iff hi hw, hi]

end

/-! ## What each kind of step does to the event flags (R198) -/

theorem twoPow_bit {i k : Nat} (hi : i < 4) : (BitVec.twoPow 4 i).getLsbD k = true ↔ k = i := by
  simp [hi, eq_comm]

theorem flagDone_bit {k : Nat} : flagDone.getLsbD k = true ↔ k = 0 := twoPow_bit (i := 0) (by decide)
theorem flagError_bit {k : Nat} : flagError.getLsbD k = true ↔ k = 1 := twoPow_bit (i := 1) (by decide)
theorem flagOverrun_bit {k : Nat} : flagOverrun.getLsbD k = true ↔ k = 2 := twoPow_bit (i := 2) (by decide)
theorem flagAccess_bit {k : Nat} : flagAccess.getLsbD k = true ↔ k = 3 := twoPow_bit (i := 3) (by decide)

theorem completionFlags_bit (e : ErrCode) (k : Nat) :
    (completionFlags e).getLsbD k = true ↔ k = 0 ∨ (k = 1 ∧ e ≠ .none) := by
  rw [completionFlags, BitVec.getLsbD_or, Bool.or_eq_true, flagDone_bit]
  split <;> simp [*, flagError_bit]

/-- A write of word v keeps flag k exactly if v[k] = 0 (R200). -/
theorem clearFlags_bit (flags : BitVec 4) (v : Word) {k : Nat} (hk : k < 4) :
    (clearFlags flags v).getLsbD k = (flags.getLsbD k && !v.getLsbD k) := by
  simp [clearFlags, hk]

/-- A host read sets ACCESS at a DATA or NBITS read while Busy, and clears nothing. -/
theorem readWin_irqStatus_bit (s : State) (r : WinReg) (k : Nat) : (s.readWin r).2.irqStatus.getLsbD k = true ↔
    (k = 3 ∧ s.pending ≠ none ∧ (r = .data ∨ r = .nbits)) ∨ s.irqStatus.getLsbD k = true := by
  simp only [readWin_irqStatus, busy_iff]
  split_ifs with h
  · simp [h, flagAccess_bit, or_comm]
  · simp [h]

/-- A host write sets OVERRUN or ACCESS while Busy, and clears flags through IRQ_STATUS or a soft reset. -/
theorem writeWin_irqStatus_bit (s : State) (w : Word) (r : WinReg) {k : Nat} (hk : k < 4) :
    (s.writeWin w r).irqStatus.getLsbD k = true ↔
      ((k = 2 ∧ s.pending ≠ none ∧ r = .cmd) ∨ (k = 3 ∧ s.pending ≠ none ∧ r = .data)) ∨
        (s.irqStatus.getLsbD k = true ∧
          ¬ ((r = .irqStatus ∧ w.getLsbD k = true) ∨ (r = .ctrl ∧ w.getLsbD 0 = true))) := by
  cases r with
  | ctrl =>
    rw [State.writeWin, State.writeCtrl]
    cases w.getLsbD 0 <;> simp
  | cmd =>
    by_cases hp : s.pending = none
    · simp [State.writeWin, issue_idle hp, hp]
    · simp [State.writeWin, issue_busy hp, hp, flagOverrun_bit, or_comm]
  | data =>
    by_cases hp : s.pending = none
    · cases hsel : s.selectsWord
      · simp [State.writeWin, writeData_outOfRange hp hsel, hp]
      · simp [State.writeWin, writeData_inRange hp hsel, hp]
    · simp [State.writeWin, writeData_busy hp, hp, flagAccess_bit, or_comm]
  | irqStatus => simp [State.writeWin, clearFlags_bit _ _ hk]
  | id | capbits | nreg | status | irqEnable | rsel | widx | nbits | reserved => simp [State.writeWin]

/-- What sets event flag k in the step from s to t: DONE, ERROR, OVERRUN, ACCESS. -/
def flagEvent (s t : State) (k : Nat) : Prop :=
  (k = 0 ∧ s.completes) ∨ (k = 1 ∧ s.completes ∧ t.errcode ≠ .none) ∨
    (k = 2 ∧ s.pending ≠ none ∧ ∃ w, s.writes .cmd w) ∨
    (k = 3 ∧ s.pending ≠ none ∧ (s.reads .data ∨ s.reads .nbits ∨ ∃ w, s.writes .data w))

/-- A core turn sets the flags of a completion. -/
theorem coreTurn_irqStatus_bit {s t : State} (h : coreTurn s = .next t) (k : Nat) : t.irqStatus.getLsbD k = true ↔
    ((k = 0 ∧ s.pending ≠ none) ∨ (k = 1 ∧ s.pending ≠ none ∧ t.errcode ≠ .none)) ∨ s.irqStatus.getLsbD k = true := by
  by_cases hp : s.pending = none
  · rw [coreTurn_idle hp] at h
    simp [← Host.Outcome.next.inj h, hp]
  · obtain ⟨i, hc⟩ := coreTurn_busy hp h
    rw [completion_irqStatus hc, BitVec.getLsbD_or, Bool.or_eq_true, completionFlags_bit, or_comm]
    simp [hp]

/-- Flag by flag, by the inversion of a step. -/
theorem irqStatus_bit_of_step {s t : State} (h : step s = .next t) {k : Nat} (hk : k < 4) :
    t.irqStatus.getLsbD k = true ↔ flagEvent s t k ∨ (s.irqStatus.getLsbD k = true ∧ ¬ clearsFlag s k) := by
  cases step_cases h with
  | core rest hi h =>
    obtain ⟨hreads, hwrites, hresets⟩ := no_access_of_core hi
    have hcompletes : s.completes ↔ s.pending ≠ none := ⟨And.left, completes_of hi⟩
    rw [coreTurn_irqStatus_bit h]
    simp [flagEvent, clearsFlag, hreads, hwrites, hresets, hcompletes]
  | reset rest hi h =>
    obtain ⟨hreads, hwrites, hcompletes⟩ := no_other_event_of_reset hi
    simp [h, flagEvent, clearsFlag, hreads, hwrites, hcompletes, resets_of_reset hi]
  | read addr size rest hi hw h =>
    obtain ⟨hwrites, hresets, hcompletes⟩ := no_other_event_of_read hi
    rw [h, State.respond_irqStatus, readWin_irqStatus_bit]
    simp [flagEvent, clearsFlag, hwrites, hresets, hcompletes, reads_iff hi hw]
  | write addr size w rest hi hw h =>
    obtain ⟨hreads, hcompletes⟩ := no_other_event_of_write hi
    rw [h, writeWin_irqStatus_bit _ _ _ hk]
    simp [flagEvent, clearsFlag, hreads, hcompletes, writes_iff hi hw, resets_iff_of_write hi hw]

/-- Settles O46: the clause of each flag is the flag's event written out. -/
theorem eventFlagsAreSetExactlyByTheirEvents : Obligations.EventFlagsAreSetExactlyByTheirEvents := by
  intro s t h
  refine ⟨?_, ?_, ?_, ?_⟩
  · simpa [flagEvent] using irqStatus_bit_of_step h (k := 0) (by decide)
  · simpa [flagEvent] using irqStatus_bit_of_step h (k := 1) (by decide)
  · simpa [flagEvent] using irqStatus_bit_of_step h (k := 2) (by decide)
  · simpa [flagEvent] using irqStatus_bit_of_step h (k := 3) (by decide)

/-! ## ILLEGAL commands (R191) -/

/-- Settles O35: the acceptance is that of O36, with nothing to sample, and the completion is the core's turn. -/
theorem illegalCompletesWithCodeOne : Obligations.IllegalCompletesWithCodeOne := by
  refine ⟨fun s w rest why hi hp hd => ?_, fun s ops rest hp hi => ?_⟩
  · obtain ⟨haccept, -⟩ := cmdWriteIsAcceptedOrOverruns s w rest hi
    refine ⟨_, haccept hp, rfl, ?_, rfl⟩
    simp only [hd]
  · rw [step_of_coreTurn (.inr hi), coreTurn_illegal (s := { s with inputs := rest }) hp, complete_eq_completed]
    rfl

/-! ## Writes of the window (R200) -/

/-- Settles O56: each write is `writeWin` at its register, and the registers left over ignore it. -/
theorem windowWrites : Obligations.WindowWrites := by
  refine fun s w rest => ⟨fun hi => ⟨_, step_hostWrite hi, fun k => clearFlags_bit _ w⟩,
    fun hi => ⟨_, step_hostWrite hi, BitVec.extractLsb'_toNat 0 4 w⟩,
    fun hi => ⟨_, step_hostWrite hi, BitVec.extractLsb'_toNat 0 4 w⟩,
    fun hi => ⟨_, step_hostWrite hi, BitVec.extractLsb'_toNat 0 16 w⟩, fun r hr hi => ?_⟩
  rw [step_hostWrite hi]
  fin_cases hr <;> rfl

/-! ## The interrupt output (R199) -/

/-- Settles O58: a word is not 0 exactly if one of its bits is set. -/
theorem irqIsOrOfEnabledFlags : Obligations.IrqIsOrOfEnabledFlags := by
  refine ⟨fun s => ?_, fun p => by simp [State.irq, State.powerOn]⟩
  rw [State.irq, bne_iff_ne, Ne, BitVec.eq_of_getLsbD_eq_iff]
  simp

end Sys2Proof.Proofs

namespace Sys2Proof.Proofs

open Sys2Proof.Machine Sys2Proof.Claims

/-! # 70_reset_and_hazards.md: the two resets, the latency and the progress of a pending command -/

/-! ## What host accesses leave of a command in flight (R41, R59) -/

/-- t has the command in flight of s, and everything its completion reads or leaves as it is. -/
structure KeepsCommand (s t : State) : Prop where
  params : t.params = s.params
  pending : t.pending = s.pending
  x : t.x = s.x
  cmp : t.cmp = s.cmp
  errcode : t.errcode = s.errcode
  cmd : t.cmd = s.cmd

section
variable {s t u : State}

theorem KeepsCommand.trans (h : KeepsCommand s t) (h' : KeepsCommand t u) : KeepsCommand s u where
  params := h'.params.trans h.params
  pending := h'.pending.trans h.pending
  x := h'.x.trans h.x
  cmp := h'.cmp.trans h.cmp
  errcode := h'.errcode.trans h.errcode
  cmd := h'.cmd.trans h.cmd

/-- Which accesses are ordinary is settled by the parameters: the window does not move. -/
theorem ordinary_congr (h : t.params = s.params) (a : Access) : a.ordinary t ↔ a.ordinary s := by
  cases a <;> simp only [Access.ordinary, State.inWindow, State.winReg, h]

theorem step_ordinary {a : Access} {rest : List Input} (hp : s.pending ≠ none) (ha : a.ordinary s)
    (hi : s.inputs = .host a :: rest) : ∃ t, step s = .next t ∧ KeepsCommand s t ∧ t.inputs = rest := by
  obtain ⟨t, hstep, hpending, hx, hcmp, herrcode, hcmd, hinputs, hparams⟩ := step_access_busy hp ha hi
  exact ⟨t, hstep, ⟨hparams, hpending, hx, hcmp, herrcode, hcmd⟩, hinputs⟩

theorem run_succ_of_step (h : step s = .next t) (n : Nat) : run (n + 1) s = run n t := by
  rw [run, h]

/-- Any number of ordinary accesses, one step each. -/
theorem run_ordinary {as : List Access} {rest : List Input} (hp : s.pending ≠ none) (ha : ∀ a ∈ as, a.ordinary s)
    (hi : s.inputs = as.map .host ++ rest) :
    ∃ t, run as.length s = .next t ∧ KeepsCommand s t ∧ t.inputs = rest := by
  induction as generalizing s with
  | nil => exact ⟨s, rfl, ⟨rfl, rfl, rfl, rfl, rfl, rfl⟩, hi⟩
  | cons a as ih =>
    obtain ⟨ha, has⟩ := List.forall_mem_cons.1 ha
    obtain ⟨t, hstep, hkeep, hinputs⟩ := step_ordinary hp ha hi
    obtain ⟨u, hrun, hkeep', hinputs'⟩ := ih (hkeep.pending.trans_ne hp)
      (fun b hb => (ordinary_congr hkeep.params b).2 (has b hb)) hinputs
    exact ⟨u, (run_succ_of_step hstep as.length).trans hrun, hkeep.trans hkeep', hinputs'⟩

end

/-! ## What a completion depends on (R41, R230) -/

section
variable {s t : State}

/-- One effect writes the same registers, STATUS.CMP and ERRCODE in both. -/
theorem KeepsCommand.apply_eq (h : KeepsCommand s t) (e : Effect) :
    (e.apply t).x = (e.apply s).x ∧ (e.apply t).cmp = (e.apply s).cmp ∧ (e.apply t).errcode = (e.apply s).errcode := by
  simp [Effect.apply_eq, h.x, h.cmp]

theorem KeepsCommand.sameOperands (h : KeepsCommand s t) (i : Instr) : SameOperands i s t :=
  ⟨h.params, fun k r _ => operand_congr h.pending h.x k r⟩

/-- The completion of the command in flight writes the same in both. -/
theorem KeepsCommand.coreTurn_apply (h : KeepsCommand s t) (hp : s.pending ≠ none) :
    ∃ e : Effect, coreTurn s = .next (e.apply s) ∧ coreTurn t = .next (e.apply t) := by
  obtain ⟨⟨work, ops⟩, hw⟩ := Option.ne_none_iff_exists'.1 hp
  have hw' := h.pending.trans hw
  cases work with
  | illegal => exact ⟨⟨[], none, .illegal⟩, coreTurn_illegal hw, coreTurn_illegal hw'⟩
  | command i =>
    obtain ⟨e, he⟩ := exec_effect i s
    exact ⟨e, (coreTurn_command hw).trans (he s SameOperands.rfl),
      (coreTurn_command hw').trans (he t (h.sameOperands i))⟩

end

/-- Settles O40: the accesses keep the command and all that its completion depends on, so one effect completes it with
and without them. -/
theorem latencyDoesNotChangeTheResult : Obligations.LatencyDoesNotChangeTheResult := by
  intro s as rest hp ha
  obtain ⟨t, hrun, hkeep, hinputs⟩ := run_ordinary (s := { s with inputs := as.map .host ++ .core :: rest }) hp ha rfl
  have hkeep' : KeepsCommand { s with inputs := rest } { t with inputs := rest } := { hkeep with }
  obtain ⟨e, hs, ht⟩ := hkeep'.coreTurn_apply hp
  obtain ⟨hx, hcmp, herrcode⟩ := hkeep'.apply_eq e
  exact ⟨t, _, _, hrun, hkeep.pending, hkeep.x, hkeep.cmp, hkeep.errcode, hkeep.cmd, hinputs,
    (step_of_coreTurn (.inr hinputs)).trans ht, (step_of_coreTurn (.inr rfl)).trans hs, hx, hcmp, herrcode, rfl⟩

/-! ## The progress of a pending command (R231) -/

/-- Inputs that reset nothing are accesses up to the core's first turn or the end. -/
theorem split_at_coreTurn {p : Access → Prop} {es : List Input}
    (h : ∀ e ∈ es, e = .core ∨ ∃ a, e = .host a ∧ p a) : ∃ (as : List Access) (rest : List Input),
      es = as.map .host ++ rest ∧ (∀ a ∈ as, p a) ∧ (rest = [] ∨ rest.head? = some .core) := by
  induction es with
  | nil => exact ⟨[], [], rfl, by simp, .inl rfl⟩
  | cons e es ih =>
    obtain ⟨he, hes⟩ := List.forall_mem_cons.1 h
    obtain rfl | ⟨a, rfl, ha⟩ := he
    · exact ⟨[], .core :: es, rfl, by simp, .inr rfl⟩
    · obtain ⟨as, rest, rfl, has, hrest⟩ := ih hes
      exact ⟨a :: as, rest, rfl, List.forall_mem_cons.2 ⟨ha, has⟩, hrest⟩

/-- A completing step leaves the core Idle with DONE set (R42). -/
theorem step_completes {s : State} (hc : s.completes) :
    ∃ t, step s = .next t ∧ t.pending = none ∧ t.irqStatus.getLsbD 0 = true := by
  obtain ⟨rest, hstep⟩ := step_of_completes hc
  obtain ⟨t, ht⟩ := coreTurn_next { s with inputs := rest }
  obtain ⟨i, hcompletion⟩ := coreTurn_busy (s := { s with inputs := rest }) hc.1 ht
  have hnext := hstep.trans ht
  exact ⟨t, hnext, completion_pending hcompletion,
    (irqStatus_bit_of_step hnext (by decide)).2 (.inl (.inl ⟨rfl, hc⟩))⟩

/-- Settles O41: the accesses before the core's turn keep the command, and the core's turn completes it. -/
theorem pendingCommandCompletes : Obligations.PendingCommandCompletes := by
  intro s hp hes
  obtain ⟨as, rest, hi, has, hrest⟩ := split_at_coreTurn hes
  obtain ⟨t, hrun, hkeep, hinputs⟩ := run_ordinary hp has hi
  have hc : t.completes := ⟨hkeep.pending.trans_ne hp, hinputs ▸ hrest⟩
  obtain ⟨u, hu⟩ := step_completes hc
  exact ⟨as.length, t, u, by simp [hi], hrun, hkeep.pending, hkeep.x, hc, hu⟩

/-! ## The two resets (R220, R221) -/

/-- Settles O50: the write is `writeCtrl`, and its bit 0 decides whether that is a soft reset. -/
theorem softResetKeepsOnlyRegisters : Obligations.SoftResetKeepsOnlyRegisters := by
  intro s w rest hi
  have hstep : step s = .next (State.writeCtrl { s with inputs := rest } w) := step_hostWrite hi
  refine ⟨fun hw => ?_, fun hw => ?_⟩
  · rw [hstep, State.writeCtrl, if_pos hw]
    rfl
  · rw [hstep, State.writeCtrl, if_neg (Bool.eq_false_iff.1 hw)]

theorem mem_powerOn_undef {p : Params} {k : Nat} : k ∈ (OpReg.powerOn p).undef ↔ k < p.capWords := List.mem_range

/-- STATUS is 0 in an Idle core whose last comparison was EQ and that reports no error (R34). -/
theorem statusWord_eq_zero {s : State} (hp : s.pending = none) (hcmp : s.cmp = .eq) (herr : s.errcode = .none) :
    s.statusWord = 0 := by
  rw [State.statusWord, State.busy, State.err, hp, hcmp, herr]
  rfl

/-- Settles O51: the step is `powerOnReset`, each of whose registers is `OpReg.powerOn`. -/
theorem powerOnResetState : Obligations.PowerOnResetState := by
  intro s rest hi
  refine ⟨State.powerOnReset { s with inputs := rest }, step_of_cons hi, rfl, ?_, fun r hr k => ?_,
    statusWord_eq_zero rfl rfl rfl, rfl, rfl, rfl, rfl, rfl, rfl, by simp [State.irq], rfl⟩
  · exact List.length_replicate
  · obtain rfl := List.eq_of_mem_replicate hr
    exact mem_powerOn_undef

end Sys2Proof.Proofs
